-- ==== Sys2Proof/Word.lean ====
section
/-!
DEFINITION. The word types of SSS-CORE (00_scope R6, R7). All quantities are unsigned; bit 0 is the least significant.
-/

namespace Sys2Proof

/-- A byte, 0 to 255: a FieldElement or a plain byte, with no difference between the two (00_scope R6, R8). -/
abbrev Byte := BitVec 8

/-- The 16-bit data field of a response and the 16-bit index of a command (30_encoding R77, R82). -/
abbrev Half := BitVec 16

/-- The 12-bit operands N and K of SPLIT (30_encoding R83). -/
abbrev Count12 := BitVec 12

/-- A command word or a response word (30_encoding R70, R77). -/
abbrev Word := BitVec 32

end Sys2Proof
end

