-- ==== Sys2Proof/Syntax.lean ====
section
/-!
DEFINITION. The commands of SSS-CORE command set 1, one constructor per row of spec/opcode_table.json (30_encoding R84), and the
assembler line of 30_encoding R89. An operand has the width of its field (R81 to R83), so every term of `Instr` is a command
that the machine accepts; what can be ill-formed is a line of assembly (`WellFormed.lean`).
-/

namespace Sys2Proof

/-- A command with its operands (30_encoding R84). -/
inductive Instr where
  /-- `FADD a, b`, 40_field R105. -/
  | fadd (a b : Byte)
  /-- `FSUB a, b`, 40_field R106. -/
  | fsub (a b : Byte)
  /-- `FMUL a, b`, 40_field R107. -/
  | fmul (a b : Byte)
  /-- `FDIV a, b`, 40_field R108. -/
  | fdiv (a b : Byte)
  /-- `FINV a`, 40_field R109. -/
  | finv (a : Byte)
  /-- `PBUILD s, k`, 42_polynomial R132. -/
  | pbuild (s k : Byte)
  /-- `PEVAL x`, 42_polynomial R133. -/
  | peval (x : Byte)
  /-- `CCLR`, 46_buffer_access R170. -/
  | cclr
  /-- `CPUSH b`, 46_buffer_access R171. -/
  | cpush (b : Byte)
  /-- `CRD i`, 46_buffer_access R172. -/
  | crd (i : Byte)
  /-- `SPLIT n, k`, 43_splitter R141. -/
  | split (n k : Count12)
  /-- `SCLR`, 46_buffer_access R173. -/
  | sclr
  /-- `SPUSH b`, 46_buffer_access R174. -/
  | spush (b : Byte)
  /-- `SRD idx`, 46_buffer_access R175. -/
  | srd (idx : Half)
  /-- `COMBINE`, 44_combiner R151. -/
  | combine
  /-- `SHCLR`, 46_buffer_access R176. -/
  | shclr
  /-- `SHDEL s`, 46_buffer_access R177. -/
  | shdel (s : Byte)
  /-- `SHID s`, 46_buffer_access R178. -/
  | shid (s : Byte)
  /-- `SHLEN s`, 46_buffer_access R179. -/
  | shlen (s : Byte)
  /-- `SHRD s, idx`, 46_buffer_access R180. -/
  | shrd (s : Byte) (idx : Half)
  /-- `ENC s`, 45_codec R160. -/
  | enc (s : Byte)
  /-- `DEC`, 45_codec R161. -/
  | dec
  /-- `IOCLR`, 46_buffer_access R181. -/
  | ioclr
  /-- `IOPUSH b`, 46_buffer_access R182. -/
  | iopush (b : Byte)
  /-- `IORD idx`, 46_buffer_access R183. -/
  | iord (idx : Half)
  /-- `RDR r`, 46_buffer_access R185. -/
  | rdr (r : Byte)
deriving DecidableEq, Repr

/-- A line of assembly after its comment is cut off: a mnemonic and its operands as numbers (30_encoding R89). -/
structure Line where
  mnemonic : String
  operands : List Nat
deriving DecidableEq, Repr

end Sys2Proof
end

