-- ==== Sys2Proof/WellFormed.lean ====
section
/-!
DEFINITION. When a line of assembly is well-formed (30_encoding R89): its mnemonic is one of the 26 of 30_encoding R84, in
capitals; it has that command's operands, no more and no fewer; and every operand fits its field. A command (`Instr`) is
well-formed when the line that prints it is.
-/

namespace Sys2Proof

/-- The operand widths of each mnemonic, in bits and in the order of the "operands" column of 30_encoding R84. -/
def operandWidths : List (String × List Nat) :=
  [("FADD", [8, 8]), ("FSUB", [8, 8]), ("FMUL", [8, 8]), ("FDIV", [8, 8]), ("FINV", [8]),
   ("PBUILD", [8, 8]), ("PEVAL", [8]), ("CCLR", []), ("CPUSH", [8]), ("CRD", [8]),
   ("SPLIT", [12, 12]), ("SCLR", []), ("SPUSH", [8]), ("SRD", [16])] ++
  [("COMBINE", []), ("SHCLR", []), ("SHDEL", [8]), ("SHID", [8]), ("SHLEN", [8]), ("SHRD", [8, 16]),
   ("ENC", [8]), ("DEC", []), ("IOCLR", []), ("IOPUSH", [8]), ("IORD", [16]), ("RDR", [8])]

/-- The operands fit the fields: as many as there are fields, each below 2 to its field's width (30_encoding R89). -/
def operandsFit : List Nat → List Nat → Bool
  | [], [] => true
  | v :: vs, w :: ws => decide (v < 2 ^ w) && operandsFit vs ws
  | _, _ => false

/-- The line names a command of 30_encoding R84 and its operands fit (30_encoding R89). -/
def Line.wellFormed (l : Line) : Bool :=
  match operandWidths.lookup l.mnemonic with
  | some ws => operandsFit l.operands ws
  | none => false

/-- The line that prints a command: its mnemonic and its operands in order (30_encoding R84, R89). -/
def Instr.toLine : Instr → Line
  | .fadd a b => ⟨"FADD", [a.toNat, b.toNat]⟩
  | .fsub a b => ⟨"FSUB", [a.toNat, b.toNat]⟩
  | .fmul a b => ⟨"FMUL", [a.toNat, b.toNat]⟩
  | .fdiv a b => ⟨"FDIV", [a.toNat, b.toNat]⟩
  | .finv a => ⟨"FINV", [a.toNat]⟩
  | .pbuild s k => ⟨"PBUILD", [s.toNat, k.toNat]⟩
  | .peval x => ⟨"PEVAL", [x.toNat]⟩
  | .cclr => ⟨"CCLR", []⟩
  | .cpush b => ⟨"CPUSH", [b.toNat]⟩
  | .crd i => ⟨"CRD", [i.toNat]⟩
  | .split n k => ⟨"SPLIT", [n.toNat, k.toNat]⟩
  | .sclr => ⟨"SCLR", []⟩
  | .spush b => ⟨"SPUSH", [b.toNat]⟩
  | .srd idx => ⟨"SRD", [idx.toNat]⟩
  | .combine => ⟨"COMBINE", []⟩
  | .shclr => ⟨"SHCLR", []⟩
  | .shdel s => ⟨"SHDEL", [s.toNat]⟩
  | .shid s => ⟨"SHID", [s.toNat]⟩
  | .shlen s => ⟨"SHLEN", [s.toNat]⟩
  | .shrd s idx => ⟨"SHRD", [s.toNat, idx.toNat]⟩
  | .enc s => ⟨"ENC", [s.toNat]⟩
  | .dec => ⟨"DEC", []⟩
  | .ioclr => ⟨"IOCLR", []⟩
  | .iopush b => ⟨"IOPUSH", [b.toNat]⟩
  | .iord idx => ⟨"IORD", [idx.toNat]⟩
  | .rdr r => ⟨"RDR", [r.toNat]⟩

/-- A command is well-formed when its line is. Every term of `Instr` is, by the widths of its operands
(`Laws/Encoding.lean`, `wellFormed_all`). -/
def Instr.wellFormed (i : Instr) : Bool := i.toLine.wellFormed

end Sys2Proof
end

