-- ==== Sys2Proof/Decode.lean ====
section
/-!
DEFINITION. The decoder of 30_encoding R88, total on all 2^32 words, and the encoder, both from the formats of R71 to R76 and the
opcode map of R84. A word that is no command is rejected by name: a reserved opcode (R85) or a set reserved bit (R86).
`opcodeRows` is the machine-readable table, kept as data beside the two.
-/

namespace Sys2Proof

/-- What the decoder makes of a word (30_encoding R88). -/
inductive Decoded where
  /-- A legal command. -/
  | instr (i : Instr)
  /-- The opcode is in no row of R84 (30_encoding R85). -/
  | reservedOpcode (op : Byte)
  /-- The opcode is defined, but a bit its format marks "zero" is set (30_encoding R86). -/
  | reservedBits (op : Byte)
deriving DecidableEq, Repr

/-- The command, where there is one. -/
def Decoded.toOption : Decoded → Option Instr
  | .instr i => some i
  | .reservedOpcode _ => none
  | .reservedBits _ => none

/-! ### Fields of the command word (30_encoding R70 to R76) -/

/-- `W[31:24]`, the opcode (30_encoding R70). -/
def opField (w : Word) : Byte := w.extractLsb' 24 8

/-- `W[23:16]`, the operand `a` (30_encoding R72, R73, R75). -/
def aField (w : Word) : Byte := w.extractLsb' 16 8

/-- `W[15:8]`, the operand `b` (30_encoding R73). -/
def bField (w : Word) : Byte := w.extractLsb' 8 8

/-- `W[15:0]`, the index (30_encoding R74, R75). -/
def idxField (w : Word) : Half := w.extractLsb' 0 16

/-- `W[23:12]`, the operand `n` of SPLIT (30_encoding R76). -/
def nField (w : Word) : Count12 := w.extractLsb' 12 12

/-- `W[11:0]`, the operand `k` of SPLIT (30_encoding R76). -/
def kField (w : Word) : Count12 := w.extractLsb' 0 12

/-! ### One decoder per format, with the mask of reserved bits of 30_encoding R86 -/

/-- Accept the command if no bit of the format's mask is set (30_encoding R86). -/
def ifClear (w mask : Word) (i : Instr) : Decoded :=
  if w &&& mask = 0 then .instr i else .reservedBits (opField w)

/-- The reserved bits of format Z: `W[23:0]`. -/
def maskZ : Word := 0x00FFFFFF
/-- The reserved bits of format A: `W[15:0]`. -/
def maskA : Word := 0x0000FFFF
/-- The reserved bits of format AB: `W[7:0]`. -/
def maskAB : Word := 0x000000FF
/-- The reserved bits of format I: `W[23:16]`. -/
def maskI : Word := 0x00FF0000

/-- Format Z, no operands (30_encoding R71). -/
def decodeZ (w : Word) (i : Instr) : Decoded := ifClear w maskZ i
/-- Format A, one 8-bit operand (30_encoding R72). -/
def decodeA (w : Word) (mk : Byte → Instr) : Decoded := ifClear w maskA (mk (aField w))
/-- Format AB, two 8-bit operands (30_encoding R73). -/
def decodeAB (w : Word) (mk : Byte → Byte → Instr) : Decoded := ifClear w maskAB (mk (aField w) (bField w))
/-- Format I, one 16-bit index (30_encoding R74). -/
def decodeI (w : Word) (mk : Half → Instr) : Decoded := ifClear w maskI (mk (idxField w))
/-- Format AI, an 8-bit operand and a 16-bit index; no reserved bits (30_encoding R75). -/
def decodeAI (w : Word) (mk : Byte → Half → Instr) : Decoded := .instr (mk (aField w) (idxField w))
/-- Format NK, two 12-bit integers; no reserved bits (30_encoding R76). -/
def decodeNK (w : Word) (mk : Count12 → Count12 → Instr) : Decoded := .instr (mk (nField w) (kField w))

/-- The decoder: the opcode selects the command and its format (30_encoding R84, R88). -/
def decode (w : Word) : Decoded :=
  match (opField w).toNat with
  | 0x10 => decodeAB w .fadd
  | 0x11 => decodeAB w .fsub
  | 0x12 => decodeAB w .fmul
  | 0x13 => decodeAB w .fdiv
  | 0x14 => decodeA w .finv
  | 0x20 => decodeAB w .pbuild
  | 0x21 => decodeA w .peval
  | 0x22 => decodeZ w .cclr
  | 0x23 => decodeA w .cpush
  | 0x24 => decodeA w .crd
  | 0x30 => decodeNK w .split
  | 0x31 => decodeZ w .sclr
  | 0x32 => decodeA w .spush
  | 0x33 => decodeI w .srd
  | 0x40 => decodeZ w .combine
  | 0x41 => decodeZ w .shclr
  | 0x42 => decodeA w .shdel
  | 0x43 => decodeA w .shid
  | 0x44 => decodeA w .shlen
  | 0x45 => decodeAI w .shrd
  | 0x50 => decodeA w .enc
  | 0x51 => decodeZ w .dec
  | 0x52 => decodeZ w .ioclr
  | 0x53 => decodeA w .iopush
  | 0x54 => decodeI w .iord
  | 0x60 => decodeA w .rdr
  | _ => .reservedOpcode (opField w)

/-- The command in an instruction whose bits are `w`, numbered as the opcode table numbers them. A command is one 32-bit
word (30_encoding R70); a row of fewer bits would be filled with zeros above, and nothing is longer than one word. -/
def decodeTableWord (nbits w : Nat) : Option Instr :=
  if nbits ≤ 32 then (decode (BitVec.ofNat 32 (w % 2 ^ nbits))).toOption else none

/-! ### The encoder -/

/-- Format Z (30_encoding R71). -/
def encodeZ (op : Byte) : Word := op ++ (0 : BitVec 24)
/-- Format A (30_encoding R72). -/
def encodeA (op a : Byte) : Word := op ++ a ++ (0 : BitVec 16)
/-- Format AB (30_encoding R73). -/
def encodeAB (op a b : Byte) : Word := op ++ a ++ b ++ (0 : BitVec 8)
/-- Format I (30_encoding R74). -/
def encodeI (op : Byte) (idx : Half) : Word := op ++ (0 : BitVec 8) ++ idx
/-- Format AI (30_encoding R75). -/
def encodeAI (op a : Byte) (idx : Half) : Word := op ++ a ++ idx
/-- Format NK (30_encoding R76). -/
def encodeNK (op : Byte) (n k : Count12) : Word := op ++ n ++ k

/-- The word of a command, from the opcode map of 30_encoding R84. -/
def encode : Instr → Word
  | .fadd a b => encodeAB 0x10 a b
  | .fsub a b => encodeAB 0x11 a b
  | .fmul a b => encodeAB 0x12 a b
  | .fdiv a b => encodeAB 0x13 a b
  | .finv a => encodeA 0x14 a
  | .pbuild s k => encodeAB 0x20 s k
  | .peval x => encodeA 0x21 x
  | .cclr => encodeZ 0x22
  | .cpush b => encodeA 0x23 b
  | .crd i => encodeA 0x24 i
  | .split n k => encodeNK 0x30 n k
  | .sclr => encodeZ 0x31
  | .spush b => encodeA 0x32 b
  | .srd idx => encodeI 0x33 idx
  | .combine => encodeZ 0x40
  | .shclr => encodeZ 0x41
  | .shdel s => encodeA 0x42 s
  | .shid s => encodeA 0x43 s
  | .shlen s => encodeA 0x44 s
  | .shrd s idx => encodeAI 0x45 s idx
  | .enc s => encodeA 0x50 s
  | .dec => encodeZ 0x51
  | .ioclr => encodeZ 0x52
  | .iopush b => encodeA 0x53 b
  | .iord idx => encodeI 0x54 idx
  | .rdr r => encodeA 0x60 r

/-! ### The opcode table as data -/

/-- A row of the opcode table: the bits that are fixed (`mask`) and their values (`pattern`). -/
structure OpcodeRow where
  mnemonic : String
  pattern : Word
  mask : Word
deriving DecidableEq, Repr

/-- The 26 rows of spec/opcode_table.json, with its "match" and "mask" columns. -/
def opcodeRows : List OpcodeRow :=
  [⟨"FADD", 0x10000000, 0xFF0000FF⟩, ⟨"FSUB", 0x11000000, 0xFF0000FF⟩, ⟨"FMUL", 0x12000000, 0xFF0000FF⟩,
   ⟨"FDIV", 0x13000000, 0xFF0000FF⟩, ⟨"FINV", 0x14000000, 0xFF00FFFF⟩, ⟨"PBUILD", 0x20000000, 0xFF0000FF⟩,
   ⟨"PEVAL", 0x21000000, 0xFF00FFFF⟩, ⟨"CCLR", 0x22000000, 0xFFFFFFFF⟩, ⟨"CPUSH", 0x23000000, 0xFF00FFFF⟩] ++
  [⟨"CRD", 0x24000000, 0xFF00FFFF⟩, ⟨"SPLIT", 0x30000000, 0xFF000000⟩, ⟨"SCLR", 0x31000000, 0xFFFFFFFF⟩,
   ⟨"SPUSH", 0x32000000, 0xFF00FFFF⟩, ⟨"SRD", 0x33000000, 0xFFFF0000⟩, ⟨"COMBINE", 0x40000000, 0xFFFFFFFF⟩,
   ⟨"SHCLR", 0x41000000, 0xFFFFFFFF⟩, ⟨"SHDEL", 0x42000000, 0xFF00FFFF⟩, ⟨"SHID", 0x43000000, 0xFF00FFFF⟩] ++
  [⟨"SHLEN", 0x44000000, 0xFF00FFFF⟩, ⟨"SHRD", 0x45000000, 0xFF000000⟩, ⟨"ENC", 0x50000000, 0xFF00FFFF⟩,
   ⟨"DEC", 0x51000000, 0xFFFFFFFF⟩, ⟨"IOCLR", 0x52000000, 0xFFFFFFFF⟩, ⟨"IOPUSH", 0x53000000, 0xFF00FFFF⟩,
   ⟨"IORD", 0x54000000, 0xFFFF0000⟩, ⟨"RDR", 0x60000000, 0xFF00FFFF⟩]

end Sys2Proof
end

