-- ==== Sys2Proof/Config.lean ====
section
/-!
DEFINITION. What an implementation of SSS-CORE fixes, and the free values. A constant declared `opaque` has no body: nothing can be
proved about which value it has, so a theorem about the model holds for every choice.
-/

namespace Sys2Proof.Config

/-- The capacity CMAX of the coefficient buffer (00_scope R5). -/
def cmax : Nat := 255

/-- The number NSLOT of share slots (00_scope R5). -/
def nslot : Nat := 255

/-- The open parameter LMAX of 00_scope R5, less one, so that its range is exactly 1 ≤ LMAX ≤ 65534. Log entry 1. -/
opaque lmaxIndex : Fin 65534

/-- LMAX of the machine that `State.reset` describes: some number from 1 to 65534 (00_scope R5). Log entry 1. -/
def lmax : Nat := lmaxIndex.val + 1

/-- FREE VALUE. The byte the Randomness Source answers, by the number of the draw (41_randomness R120, R123: "a draw under
no law"). Log entry 3. -/
opaque freeByte : Nat → Byte

/-- FREE VALUE. How many bytes a command abandoned by a reset had already drawn (70_reset R221), before it is bounded by
what the command draws in all. Log entry 4. -/
opaque lostDraws : Nat → Nat

end Sys2Proof.Config
end

