-- ==== Sys2Proof/Machine/State.lean ====
section
/-!
DEFINITION. The state of SSS-CORE as plain data: the four buffers with their length registers (10_state R23 to R31), the two word
channels (30_encoding R70, R77; 20_memory R59), the host's side of them (00_scope R13), and the Randomness Source as the
port sees it (41_randomness R120, R123). Each length register has one home, the length of its buffer's list (10_state R33 (c)).
-/

namespace Sys2Proof.Machine

/-- One share: its id and its payload bytes in order; `SH[s].len` is the length of `pay` (10_state R30). -/
structure Share where
  id  : Byte
  pay : List Byte
deriving DecidableEq, Repr

/-- The four address spaces (10_state R28 to R31). A list holds the valid cells in index order, so a cell at or above the
length register has no value (10_state R33 (c), 93 U18). Log entry 2. -/
structure Memory where
  /-- SEC, `SEC[i]` at position i; SLEN is the length. -/
  sec  : List Byte
  /-- COEF, `COEF[i]` at position i; CLEN is the length. -/
  coef : List Byte
  /-- SH, slot s at position s; SCNT is the length. -/
  sh   : List Share
  /-- IO, `IO[i]` at position i; IOLEN is the length. -/
  io   : List Byte
deriving DecidableEq, Repr

/-- A share as 10_state R33 (b) has it: its length is at most LMAX and its id is not 0. -/
abbrev Share.wf (x : Share) (lmax : Nat) : Prop := x.pay.length ≤ lmax ∧ x.id ≠ 0

/-- The form of memory: the ranges of the length registers and of the slots (10_state R33 (a) and (b)). -/
abbrev Memory.wf (m : Memory) (lmax : Nat) : Prop :=
  m.sec.length ≤ lmax ∧ m.coef.length ≤ Config.cmax ∧ m.sh.length ≤ Config.nslot ∧ m.io.length ≤ lmax + 1 ∧
    ∀ x ∈ m.sh, x.wf lmax

/-- The Randomness Source behind its port. `fixed` holds the answers of a fixed-sequence source still to come (41_randomness
R123); when it is empty the answers are the free values `Config.freeByte free`, `free` counting them. Log entry 3. -/
structure Source where
  fixed : List Byte
  free  : Nat
deriving DecidableEq, Repr

/-- What the host does next (00_scope R13, 20_memory R59, 70_reset R220). Log entry 9. -/
inductive HostAct where
  /-- Send a command word, once the response to the last one is taken. -/
  | send (w : Word)
  /-- Wait for the response that is outstanding, if any, and take it. -/
  | await
  /-- Assert reset and release it; it lands before anything else happens. -/
  | reset
deriving DecidableEq, Repr

/-- The whole machine: the engine, its two channels, the host's side of them, and the Randomness Source. -/
structure State where
  /-- LMAX, the open parameter of 00_scope R5; no step changes it. Log entry 1. -/
  lmax     : Nat
  /-- The four buffers and, as their lengths, the four registers. -/
  mem      : Memory
  /-- The Randomness Source. -/
  src      : Source
  /-- The command word accepted and not yet answered (20_memory R59). -/
  cmd      : Option Word
  /-- The response word the host has not taken yet (30_encoding R77). -/
  rsp      : Option Word
  /-- What the host will do, next act first. -/
  todo     : List HostAct
  /-- The responses the host has taken, oldest first (30_encoding R77). -/
  received : List Word
deriving DecidableEq, Repr

/-- Why the machine would stop with a fault: never. Every word has one defined outcome in every state (93, part 1, last
paragraph), and an error is a response, not a stop (60_exceptions R202). No constructor, so no definition can raise one: safe. -/
inductive Fault where
deriving DecidableEq, Repr

/-- Why the model would give no meaning. -/
inductive Refusal where
  /-- The instruction has no meaning yet. Only a refused arm of `exec` would raise it, and no arm does; safe. -/
  | notModelled (mnemonic : String)
deriving DecidableEq, Repr

/-- The machine after reset (10_state R37, 70_reset R220): all four length registers 0, so all buffers empty, no command in
flight and no response. The host has nothing to do and has taken nothing, and the source has no fixed answers (log
entries 3 and 9); LMAX is the uninterpreted `Config.lmax` (log entry 1). -/
def State.reset : State where
  lmax := Config.lmax
  mem := { sec := [], coef := [], sh := [], io := [] }
  src := { fixed := [], free := 0 }
  cmd := none
  rsp := none
  todo := []
  received := []

end Sys2Proof.Machine
end

