-- ==== Sys2Proof/Machine/Flags.lean ====
section
/-!
DEFINITION. SSS-CORE has no flags (10_state R22). The only condition a command reports is the error code of its response; this file
holds the error codes (60_exceptions R190 to R200) and the response word (30_encoding R77).
-/

namespace Sys2Proof.Machine

/-- The eleven errors (60_exceptions R190 to R200). -/
inductive Err where
  /-- R190. -/
  | invalidThreshold
  /-- R191. -/
  | invalidShareCount
  /-- R192. -/
  | shareCountOverflow
  /-- R193. -/
  | domainError
  /-- R194. -/
  | insufficientShares
  /-- R195. -/
  | malformedShares
  /-- R196. -/
  | duplicateShareId
  /-- R197. -/
  | malformedShare
  /-- R198. -/
  | illegalCommand
  /-- R199. -/
  | badAddress
  /-- R200. -/
  | capacityExceeded
deriving DecidableEq, Repr

/-- The code of an error (30_encoding R78). -/
def Err.code : Err → Byte
  | .invalidThreshold => 0x01
  | .invalidShareCount => 0x02
  | .shareCountOverflow => 0x03
  | .domainError => 0x04
  | .insufficientShares => 0x05
  | .malformedShares => 0x06
  | .duplicateShareId => 0x07
  | .malformedShare => 0x08
  | .illegalCommand => 0x80
  | .badAddress => 0x81
  | .capacityExceeded => 0x82

/-- The response word `{err, 0x00, data}` (30_encoding R77). -/
def responseWord (err : Byte) (data : Half) : Word := err ++ (0 : BitVec 8) ++ data

end Sys2Proof.Machine
end

