-- ==== Sys2Proof/Machine/Operands.lean ====
section
/-!
DEFINITION. The one addressing mode (46_buffer_access R184): the index in the command word is the index of the cell, unsigned, not
scaled, compared with the length register of its space before the access; and the values that fill the 16-bit data field.
-/

namespace Sys2Proof.Machine

/-- `zext_16` of a byte (00_scope R7, 30_encoding R77). -/
def zext16 (b : Byte) : Half := b.setWidth 16

/-- A length in the 16-bit data field; it fits because LMAX + 1 ≤ 65535 (10_state R27). Log entry 11. -/
def lengthData (n : Nat) : Half := BitVec.ofNat 16 n

/-- Read cell `i` of a space: none at or above its length (20_memory R55). -/
def readCell (cells : List Byte) (i : Nat) : Option Byte := cells[i]?

/-- Slot `s` of the share store: none if it is not occupied (20_memory R55). -/
def readSlot (slots : List Share) (s : Nat) : Option Share := slots[s]?

end Sys2Proof.Machine
end

