-- ==== Sys2Proof/Machine/Random.lean ====
section
/-!
DEFINITION. The Randomness Source port (41_randomness R120 to R124): `Rand()` is one request and one answered byte. The source always
answers (R124). `drawMany` takes answers in order; `answer` and `after` number them (R122).
-/

namespace Sys2Proof.Machine

/-- `Rand()`: one answer, and the source after it (41_randomness R120, R121). Log entry 3. -/
def Source.draw (src : Source) : Byte × Source :=
  match src.fixed with
  | b :: bs => (b, { src with fixed := bs })
  | [] => (Config.freeByte src.free, { src with free := src.free + 1 })

/-- `n` answers in the order they are taken (41_randomness R122). -/
def Source.drawMany : Nat → Source → List Byte × Source
  | 0, src => ([], src)
  | n + 1, src => (src.draw.1 :: (Source.drawMany n src.draw.2).1, (Source.drawMany n src.draw.2).2)

/-- The answer to request number `t`, counting from 0, if requests are made from `src` on (41_randomness R122). -/
def Source.answer (src : Source) (t : Nat) : Byte :=
  match src.fixed[t]? with
  | some b => b
  | none => Config.freeByte (src.free + (t - src.fixed.length))

/-- The source after `n` requests. -/
def Source.after (src : Source) (n : Nat) : Source :=
  { fixed := src.fixed.drop n, free := src.free + (n - src.fixed.length) }

/-- The source after a command that would have drawn `k` bytes was abandoned by a reset: some of the `k`, from none to all,
are lost (70_reset R221). Log entry 4. -/
def Source.lose (src : Source) (k : Nat) : Source :=
  if k = 0 then src
  else Source.after { src with free := src.free + 1 } (Config.lostDraws src.free % (k + 1))

end Sys2Proof.Machine
end

