-- ==== Sys2Proof/Machine/Ops.lean ====
section
/-!
DEFINITION. The named operations every meaning is made of: reading the registers and the cells, writing a space, and the two ways a
command ends, `respond` (00_scope R10) and `raise` (60_exceptions R202: what stands for taking an exception; there is no
return from one, R204).
-/

namespace Sys2Proof.Machine

/-! ### The four registers (10_state R23 to R26) -/

/-- SLEN (10_state R23). -/
def State.slen (s : State) : Nat := s.mem.sec.length
/-- CLEN (10_state R24). -/
def State.clen (s : State) : Nat := s.mem.coef.length
/-- SCNT (10_state R25). -/
def State.scnt (s : State) : Nat := s.mem.sh.length
/-- IOLEN (10_state R26). -/
def State.iolen (s : State) : Nat := s.mem.io.length

/-- The value of register number `r`, none where there is no register (10_state R27, 46_buffer_access R185). -/
def State.register (s : State) (r : Nat) : Option Nat :=
  match r with
  | 0 => some s.slen
  | 1 => some s.clen
  | 2 => some s.scnt
  | 3 => some s.iolen
  | 4 => some s.lmax
  | _ => none

/-! ### Cells by name (10_state, section 3) -/

/-- The name of a byte cell: (space, index) or (space, slot, index). -/
inductive Loc where
  | sec (i : Nat)
  | coef (i : Nat)
  | id (s : Nat)
  | pay (s q : Nat)
  | io (i : Nat)
deriving DecidableEq, Repr

/-- The byte in a cell; none for a cell that holds no valid byte (20_memory R55). -/
def State.readByte (s : State) : Loc → Option Byte
  | .sec i => readCell s.mem.sec i
  | .coef i => readCell s.mem.coef i
  | .id t => (readSlot s.mem.sh t).map Share.id
  | .pay t q => (readSlot s.mem.sh t).bind fun x => readCell x.pay q
  | .io i => readCell s.mem.io i

/-- `SH[t].len`, none if slot `t` is not occupied (10_state R30). -/
def State.slotLen (s : State) (t : Nat) : Option Nat := (readSlot s.mem.sh t).map fun x => x.pay.length

/-! ### Writing a space -/

/-- Write the whole of SEC, and SLEN with it. -/
def State.setSec (s : State) (v : List Byte) : State := { s with mem := { s.mem with sec := v } }
/-- Write the whole of COEF, and CLEN with it. -/
def State.setCoef (s : State) (v : List Byte) : State := { s with mem := { s.mem with coef := v } }
/-- Write the share store, and SCNT with it. -/
def State.setSh (s : State) (v : List Share) : State := { s with mem := { s.mem with sh := v } }
/-- Write the whole of IO, and IOLEN with it. -/
def State.setIo (s : State) (v : List Byte) : State := { s with mem := { s.mem with io := v } }
/-- The source after the requests a command made. -/
def State.setSrc (s : State) (v : Source) : State := { s with src := v }

/-! ### How a command ends -/

/-- Put the response word on the response channel; the command is no longer in flight (20_memory R59). -/
def State.answer (s : State) (err : Byte) (data : Half) : State :=
  { s with cmd := none, rsp := some (responseWord err data) }

/-- `respond(d)`: end with success (00_scope R10, 30_encoding R77). -/
def respond (d : Half) (s : State) : Host.Outcome State Fault Refusal := .next (s.answer 0x00 d)

/-- `raise E`: end with error E. No register, no cell and no byte of randomness changes; the response carries the code and
data 0 (60_exceptions R202). -/
def raise (e : Err) (s : State) : Host.Outcome State Fault Refusal := .next (s.answer e.code 0)

/-- Answer with the byte read, or raise BadAddress where there is none (60_exceptions R199). -/
def respondByte (b : Option Byte) (s : State) : Host.Outcome State Fault Refusal :=
  match b with
  | some v => respond (zext16 v) s
  | none => raise .badAddress s

/-- Answer with a 16-bit length, or raise BadAddress where there is none (60_exceptions R199). -/
def respondLength (n : Option Nat) (s : State) : Host.Outcome State Fault Refusal :=
  match n with
  | some v => respond (lengthData v) s
  | none => raise .badAddress s

end Sys2Proof.Machine
end

