-- ==== Sys2Proof/Machine/Buffers.lean ====
section
/-!
DEFINITION. The buffer access commands (46_buffer_access R170 to R185): clear, append, read, the share store's own, and RDR.
-/

namespace Sys2Proof.Machine

/-! ### Coefficient buffer -/

/-- `CCLR` (46_buffer_access R170). -/
def execCclr (s : State) : Host.Outcome State Fault Refusal := respond 0 (s.setCoef [])

/-- `CPUSH b` (46_buffer_access R171). -/
def execCpush (b : Byte) (s : State) : Host.Outcome State Fault Refusal :=
  if s.clen = Config.cmax then raise .capacityExceeded s else respond 0 (s.setCoef (s.mem.coef ++ [b]))

/-- `CRD i` (46_buffer_access R172). -/
def execCrd (i : Byte) (s : State) : Host.Outcome State Fault Refusal := respondByte (readCell s.mem.coef i.toNat) s

/-! ### Secret buffer -/

/-- `SCLR` (46_buffer_access R173). -/
def execSclr (s : State) : Host.Outcome State Fault Refusal := respond 0 (s.setSec [])

/-- `SPUSH b` (46_buffer_access R174). -/
def execSpush (b : Byte) (s : State) : Host.Outcome State Fault Refusal :=
  if s.slen = s.lmax then raise .capacityExceeded s else respond 0 (s.setSec (s.mem.sec ++ [b]))

/-- `SRD idx` (46_buffer_access R175). -/
def execSrd (idx : Half) (s : State) : Host.Outcome State Fault Refusal := respondByte (readCell s.mem.sec idx.toNat) s

/-! ### Share store -/

/-- `SHCLR` (46_buffer_access R176). -/
def execShclr (s : State) : Host.Outcome State Fault Refusal := respond 0 (s.setSh [])

/-- `SHDEL s` (46_buffer_access R177): the slots above move down by one and keep their order. -/
def execShdel (t : Byte) (s : State) : Host.Outcome State Fault Refusal :=
  if s.scnt ≤ t.toNat then raise .badAddress s else respond 0 (s.setSh (s.mem.sh.eraseIdx t.toNat))

/-- `SHID s` (46_buffer_access R178). -/
def execShid (t : Byte) (s : State) : Host.Outcome State Fault Refusal := respondByte (s.readByte (.id t.toNat)) s

/-- `SHLEN s` (46_buffer_access R179). -/
def execShlen (t : Byte) (s : State) : Host.Outcome State Fault Refusal := respondLength (s.slotLen t.toNat) s

/-- `SHRD s, idx` (46_buffer_access R180). -/
def execShrd (t : Byte) (idx : Half) (s : State) : Host.Outcome State Fault Refusal :=
  respondByte (s.readByte (.pay t.toNat idx.toNat)) s

/-! ### Codec buffer -/

/-- `IOCLR` (46_buffer_access R181). -/
def execIoclr (s : State) : Host.Outcome State Fault Refusal := respond 0 (s.setIo [])

/-- `IOPUSH b` (46_buffer_access R182). -/
def execIopush (b : Byte) (s : State) : Host.Outcome State Fault Refusal :=
  if s.iolen = s.lmax + 1 then raise .capacityExceeded s else respond 0 (s.setIo (s.mem.io ++ [b]))

/-- `IORD idx` (46_buffer_access R183). -/
def execIord (idx : Half) (s : State) : Host.Outcome State Fault Refusal := respondByte (readCell s.mem.io idx.toNat) s

/-! ### Registers -/

/-- `RDR r` (46_buffer_access R185). -/
def execRdr (r : Byte) (s : State) : Host.Outcome State Fault Refusal := respondLength (s.register r.toNat) s

end Sys2Proof.Machine
end

