-- ==== Sys2Proof/Machine/Codec.lean ====
section
/-!
DEFINITION. The Share Codec: ENC and DEC (45_codec R160, R161) over the layout of 30_encoding R79.
-/

namespace Sys2Proof.Machine

/-- The encoded share: id, then the payload in order (30_encoding R79). -/
def encodeShare (x : Share) : List Byte := x.id :: x.pay

/-- `ENC s` (45_codec R160). -/
def execEnc (t : Byte) (s : State) : Host.Outcome State Fault Refusal :=
  match readSlot s.mem.sh t.toNat with
  | none => raise .badAddress s
  | some x => respond 0 (s.setIo (encodeShare x))

/-- `decode(bytes)`: none is MalformedShare, for a length below 2 or a first byte 0 (45_codec R161). -/
def decodeShare (bytes : List Byte) : Option Share :=
  match bytes with
  | [] => none
  | [_] => none
  | id :: p :: ps => if id = 0 then none else some { id := id, pay := p :: ps }

/-- `DEC` (45_codec R161): MalformedShare before CapacityExceeded; the share becomes slot SCNT. -/
def execDec (s : State) : Host.Outcome State Fault Refusal :=
  match decodeShare s.mem.io with
  | none => raise .malformedShare s
  | some x =>
    if s.scnt = Config.nslot then raise .capacityExceeded s
    else respond 0 (s.setSh (s.mem.sh ++ [x]))

end Sys2Proof.Machine
end

