-- ==== Sys2Proof/Machine/Field.lean ====
section
/-!
DEFINITION. The Field unit: GF(256) addition, multiplication, inverse and division (40_field R100 to R104) and its five commands
(R105 to R109). The tables an implementation may use are not state (10_state R35, 40_field R113).
-/

namespace Sys2Proof.Machine

/-- The reduction polynomial POLY, x^8 + x^4 + x^3 + x + 1 (00_scope R5), in the width of the working value of R102. -/
def poly : BitVec 15 := 0x11B

/-- `add(a, b)` (40_field R100). -/
def fieldAdd (a b : Byte) : Byte := a ^^^ b

/-- `sub(a, b)` (40_field R101). -/
def fieldSub (a b : Byte) : Byte := a ^^^ b

/-- The carry-less product, the first loop of 40_field R102. -/
def carrylessMul (a b : Byte) : BitVec 15 :=
  [0, 1, 2, 3, 4, 5, 6, 7].foldl (fun c i => if b.getLsbD i then c ^^^ (a.setWidth 15 <<< i) else c) 0

/-- Reduction by POLY, the second loop of 40_field R102: clear bits 14 down to 8, keep bits 7 to 0. -/
def reducePoly (c : BitVec 15) : Byte :=
  ([14, 13, 12, 11, 10, 9, 8].foldl (fun c i => if c.getLsbD i then c ^^^ (poly <<< (i - 8)) else c) c).setWidth 8

/-- `mul(a, b)` (40_field R102). -/
def fieldMul (a b : Byte) : Byte := reducePoly (carrylessMul a b)

/-- `a` to the power `n` by repeated `mul`, starting from 0x01 (the reference computation of 40_field R104). -/
def fieldPow (a : Byte) : Nat → Byte
  | 0 => 1
  | n + 1 => fieldMul (fieldPow a n) a

/-- The product a^2 · a^4 · ... · a^(2^n), by squaring: a to the power 2^(n+1) - 2. -/
def squareProduct : Nat → Byte → Byte
  | 0, _ => 1
  | n + 1, a => fieldMul (fieldMul a a) (squareProduct n (fieldMul a a))

/-- `inverse(a)`: none is DomainError, else a^254 by Fermat exponentiation, 254 being 2 + 4 + ... + 128. 40_field R104
leaves the method free and fixes the value; that this is its reference computation `fieldPow a 254` is a claim. Log entry 12. -/
def fieldInv (a : Byte) : Option Byte := if a = 0 then none else some (squareProduct 7 a)

/-- `div(a, b)`: none is DomainError, else `mul(a, inverse(b))` (40_field R103). -/
def fieldDiv (a b : Byte) : Option Byte := (fieldInv b).map (fieldMul a)

/-- End with the byte, or with DomainError where the function has none (60_exceptions R193). -/
def respondField (v : Option Byte) (s : State) : Host.Outcome State Fault Refusal :=
  match v with
  | some b => respond (zext16 b) s
  | none => raise .domainError s

/-- `FADD a, b` (40_field R105). -/
def execFadd (a b : Byte) (s : State) : Host.Outcome State Fault Refusal := respond (zext16 (fieldAdd a b)) s

/-- `FSUB a, b` (40_field R106). -/
def execFsub (a b : Byte) (s : State) : Host.Outcome State Fault Refusal := respond (zext16 (fieldSub a b)) s

/-- `FMUL a, b` (40_field R107). -/
def execFmul (a b : Byte) (s : State) : Host.Outcome State Fault Refusal := respond (zext16 (fieldMul a b)) s

/-- `FDIV a, b` (40_field R108). -/
def execFdiv (a b : Byte) (s : State) : Host.Outcome State Fault Refusal := respondField (fieldDiv a b) s

/-- `FINV a` (40_field R109). -/
def execFinv (a : Byte) (s : State) : Host.Outcome State Fault Refusal := respondField (fieldInv a) s

end Sys2Proof.Machine
end

