-- ==== Sys2Proof/Machine/Combiner.lean ====
section
/-!
DEFINITION. The Combiner: Lagrange interpolation at x = 0 (44_combiner R150, R151).
-/

namespace Sys2Proof.Machine

/-- The id of share `j`; asked only for j below the number of shares. -/
def idAt (ids : List Byte) (j : Nat) : Byte := ids.getD j 0

/-- The factor of share `j` in the weight of share `i` (44_combiner R150); none is the guarded DomainError (R154). -/
def weightFactor (ids : List Byte) (i j : Nat) : Option Byte :=
  fieldDiv (idAt ids j) (fieldSub (idAt ids j) (idAt ids i))

/-- `weight(id, m, i)`: the product over j ≠ i of the factors, 0x01 for an empty product (44_combiner R150). -/
def weight (ids : List Byte) (i : Nat) : Option Byte :=
  (List.range ids.length).foldl
    (fun w j => if j = i then w else w.bind fun v => (weightFactor ids i j).map (fieldMul v)) (some 1)

/-- Every entry, or none if one is missing. -/
def allSome : List (Option Byte) → Option (List Byte)
  | [] => some []
  | none :: _ => none
  | some v :: rest => (allSome rest).map (v :: ·)

/-- The m weights of a set of ids (44_combiner R151); none is the guarded DomainError (R154). -/
def weights (ids : List Byte) : Option (List Byte) := allSome ((List.range ids.length).map (weight ids))

/-- The recovered byte of position `p`: the exclusive-or over i of `mul(SH[i].pay[p], w[i])` (44_combiner R151). Called only
for p below every payload's length. -/
def combineByte (shares : List Share) (ws : List Byte) (p : Nat) : Byte :=
  ((shares.zip ws).map fun xw => fieldMul (xw.1.pay.getD p 0) xw.2).foldl fieldAdd 0

/-- The recovered bytes of positions 0 to L-1 (44_combiner R151). -/
def combineBytes (shares : List Share) (ws : List Byte) (len : Nat) : List Byte :=
  (List.range len).map (combineByte shares ws)

/-- `SH[0].len`, or 0 for an empty store, where it is not asked for. -/
def firstLen (shares : List Share) : Nat := (shares.map fun x => x.pay.length).headD 0

/-- `COMBINE` (44_combiner R151): the three checks in their order, then the recovered bytes into SEC. -/
def execCombine (s : State) : Host.Outcome State Fault Refusal :=
  if s.scnt < 2 then raise .insufficientShares s
  else if s.mem.sh.any (fun x => decide (x.pay.length ≠ firstLen s.mem.sh)) then raise .malformedShares s
  else if ¬ (s.mem.sh.map Share.id).Nodup then raise .duplicateShareId s
  else match weights (s.mem.sh.map Share.id) with
    | none => raise .domainError s
    | some ws => respond 0 (s.setSec (combineBytes s.mem.sh ws (firstLen s.mem.sh)))

end Sys2Proof.Machine
end

