-- ==== Sys2Proof/Machine/Polynomial.lean ====
section
/-!
DEFINITION. The Polynomial Engine: `build` and `evaluate` (42_polynomial R130, R131) and the commands PBUILD and PEVAL (R132, R133). A
polynomial is its list of coefficients, the coefficient of x^i at position i.
-/

namespace Sys2Proof.Machine

/-- `build(s, K)` for K ≥ 1: the constant term and K-1 draws, and the source after them (42_polynomial R130). -/
def buildPoly (s : Byte) (k : Nat) (src : Source) : List Byte × Source :=
  (s :: (Source.drawMany (k - 1) src).1, (Source.drawMany (k - 1) src).2)

/-- `evaluate(c, K, x)` by Horner's method, from the top coefficient down (42_polynomial R131). A polynomial has at least one
coefficient; the empty list is given 0 and no command asks for it (R133; log entry 11). -/
def evalPoly : List Byte → Byte → Byte
  | [], _ => 0
  | [c], _ => c
  | c :: d :: cs, x => fieldAdd (fieldMul (evalPoly (d :: cs) x) x) c

/-- `PBUILD s, k` (42_polynomial R132). -/
def execPbuild (b k : Byte) (s : State) : Host.Outcome State Fault Refusal :=
  if k.toNat = 0 then raise .invalidThreshold s
  else respond 0 ((s.setCoef (buildPoly b k.toNat s.src).1).setSrc (buildPoly b k.toNat s.src).2)

/-- `PEVAL x` (42_polynomial R133); x = 0 is legal (R134). -/
def execPeval (x : Byte) (s : State) : Host.Outcome State Fault Refusal :=
  if s.clen = 0 then raise .invalidThreshold s
  else respond (zext16 (evalPoly s.mem.coef x)) s

end Sys2Proof.Machine
end

