-- ==== Sys2Proof/Machine/Splitter.lean ====
section
/-!
DEFINITION. The Splitter: the command SPLIT (43_splitter R140, R141).
-/

namespace Sys2Proof.Machine

/-- One fresh polynomial of `k` coefficients per secret byte, positions in ascending order (43_splitter R141, 41_randomness
R122), and the source after all draws. -/
def splitPolys (k : Nat) : List Byte → Source → List (List Byte) × Source
  | [], src => ([], src)
  | b :: bs, src =>
    ((buildPoly b k src).1 :: (splitPolys k bs (buildPoly b k src).2).1, (splitPolys k bs (buildPoly b k src).2).2)

/-- The id of the share in slot `s`: s + 1 (43_splitter R141). -/
def shareId (s : Nat) : Byte := BitVec.ofNat 8 (s + 1)

/-- The share of slot `s`: byte p of its payload is polynomial p at x = the share's id (43_splitter R141). -/
def splitShare (polys : List (List Byte)) (s : Nat) : Share :=
  { id := shareId s, pay := polys.map fun c => evalPoly c (shareId s) }

/-- The N shares, slot by slot (43_splitter R141). -/
def splitShares (polys : List (List Byte)) (n : Nat) : List Share := (List.range n).map (splitShare polys)

/-- `SPLIT n, k` (43_splitter R140, R141): the three preconditions in their order, then the shares; SLEN becomes 0. -/
def execSplit (n k : Count12) (s : State) : Host.Outcome State Fault Refusal :=
  if k.toNat < 2 then raise .invalidThreshold s
  else if n.toNat < k.toNat then raise .invalidShareCount s
  else if n.toNat > 255 then raise .shareCountOverflow s
  else respond 0 (((s.setSh (splitShares (splitPolys k.toNat s.mem.sec s.src).1 n.toNat)).setSec []).setSrc
    (splitPolys k.toNat s.mem.sec s.src).2)

end Sys2Proof.Machine
end

