-- ==== Sys2Proof/Machine/Dispatch.lean ====
section
/-!
DEFINITION. The dispatch: one arm per command of 30_encoding R84, each a direct call of that command's meaning.
-/

namespace Sys2Proof.Machine

def exec (i : Instr) (s : State) : Host.Outcome State Fault Refusal :=
  match i with
  -- Field (40_field)
  | .fadd a b => Sys2Proof.Machine.execFadd a b s
  | .fsub a b => Sys2Proof.Machine.execFsub a b s
  | .fmul a b => Sys2Proof.Machine.execFmul a b s
  | .fdiv a b => Sys2Proof.Machine.execFdiv a b s
  | .finv a => Sys2Proof.Machine.execFinv a s
  -- Polynomial Engine (42_polynomial) and the coefficient buffer
  | .pbuild b k => Sys2Proof.Machine.execPbuild b k s
  | .peval x => Sys2Proof.Machine.execPeval x s
  | .cclr => Sys2Proof.Machine.execCclr s
  | .cpush b => Sys2Proof.Machine.execCpush b s
  | .crd j => Sys2Proof.Machine.execCrd j s
  -- Splitter (43_splitter) and the secret buffer
  | .split n k => Sys2Proof.Machine.execSplit n k s
  | .sclr => Sys2Proof.Machine.execSclr s
  | .spush b => Sys2Proof.Machine.execSpush b s
  | .srd idx => Sys2Proof.Machine.execSrd idx s
  -- Combiner (44_combiner) and the share store
  | .combine => Sys2Proof.Machine.execCombine s
  | .shclr => Sys2Proof.Machine.execShclr s
  | .shdel t => Sys2Proof.Machine.execShdel t s
  | .shid t => Sys2Proof.Machine.execShid t s
  | .shlen t => Sys2Proof.Machine.execShlen t s
  | .shrd t idx => Sys2Proof.Machine.execShrd t idx s
  -- Share Codec (45_codec) and the codec buffer
  | .enc t => Sys2Proof.Machine.execEnc t s
  | .dec => Sys2Proof.Machine.execDec s
  | .ioclr => Sys2Proof.Machine.execIoclr s
  | .iopush b => Sys2Proof.Machine.execIopush b s
  | .iord idx => Sys2Proof.Machine.execIord idx s
  -- Registers (46_buffer_access R185)
  | .rdr r => Sys2Proof.Machine.execRdr r s

end Sys2Proof.Machine
end

