-- ==== Sys2Proof/Machine/Engine.lean ====
section
/-!
DEFINITION. The engine on one command word: decode it, and execute it or raise IllegalCommand (30_encoding R88).
-/

namespace Sys2Proof.Machine

/-- The engine executes one command word, from word to response (00_scope R13). A word that is no command raises
IllegalCommand before any state is read (30_encoding R85, R86; 60_exceptions R198, R201). -/
def runWord (w : Word) (s : State) : Host.Outcome State Fault Refusal :=
  match decode w with
  | .instr i => exec i s
  | .reservedOpcode _ => raise .illegalCommand s
  | .reservedBits _ => raise .illegalCommand s

end Sys2Proof.Machine
end

