-- ==== Sys2Proof/Machine/Port.lean ====
section
/-!
DEFINITION. The ports: who moves next (00_scope R13), the host's side of the handshake (20_memory R59, 70_reset R226), the reset event
(70_reset R220, R221), and how many bytes of randomness a command draws (41_randomness R122).
-/

namespace Sys2Proof.Machine

/-- Who moves next. -/
inductive Turn where
  /-- A reset, after which the host still has `rest` to do. -/
  | reset (rest : List HostAct)
  /-- The engine, on the command word in flight. -/
  | engine (w : Word)
  /-- The host, or nobody. -/
  | host
deriving DecidableEq, Repr

/-- Reset lands before anything else (it is the only asynchronous event, 70_reset R220); a command in flight is run to its end
before the host can do anything (20_memory R53, R59); else it is the host's turn. Log entry 6. -/
def nextTurn (s : State) : Turn :=
  match s.todo with
  | .reset :: rest => .reset rest
  | _ => match s.cmd with
    | some w => .engine w
    | none => .host

/-- The host takes the response (30_encoding R77: one per command, in command order). -/
def State.takeResponse (s : State) (r : Word) : State := { s with rsp := none, received := s.received ++ [r] }

/-- The host's turn, with no command in flight. It takes the response to the last command before it sends the next; it sends
a word only when the engine is ready; with nothing to do, nothing moves (00_scope R13, 20_memory R59, 70_reset R226). -/
def hostTurn (s : State) : State :=
  match s.rsp, s.todo with
  | some r, .await :: rest => { s.takeResponse r with todo := rest }
  | some r, .send _ :: _ => s.takeResponse r
  | none, .send w :: rest => { s with cmd := some w, todo := rest }
  | none, .await :: rest => { s with todo := rest }
  | _, _ => s

/-- How many requests to the Randomness Source a command makes in this state (41_randomness R122): PBUILD k-1, a SPLIT that
passes its checks L·(K-1), every other command none. -/
def drawsOf (i : Instr) (s : State) : Nat :=
  match i with
  | .pbuild _ k => k.toNat - 1
  | .split n k => if 2 ≤ k.toNat ∧ k.toNat ≤ n.toNat ∧ n.toNat ≤ 255 then s.slen * (k.toNat - 1) else 0
  | .fadd _ _ => 0
  | .fsub _ _ => 0
  | .fmul _ _ => 0
  | .fdiv _ _ => 0
  | .finv _ => 0
  | .peval _ => 0
  | .cclr => 0
  | .cpush _ => 0
  | .crd _ => 0
  | .sclr => 0
  | .spush _ => 0
  | .srd _ => 0
  | .combine => 0
  | .shclr => 0
  | .shdel _ => 0
  | .shid _ => 0
  | .shlen _ => 0
  | .shrd _ _ => 0
  | .enc _ => 0
  | .dec => 0
  | .ioclr => 0
  | .iopush _ => 0
  | .iord _ => 0
  | .rdr _ => 0

/-- How many requests the word in flight would make, 0 where there is none or it is no command. -/
def drawsInFlight (s : State) : Nat :=
  match s.cmd with
  | none => 0
  | some w => match (decode w).toOption with
    | none => 0
    | some i => drawsOf i s

/-- The reset event (70_reset R220, R221; 10_state R37): the four registers are 0 and the buffers empty, a command in flight is
abandoned with no response, a response not yet taken is gone, and the bytes an abandoned command had drawn are lost. What
the host has taken before stays the host's. Log entries 4 and 5. -/
def resetEvent (rest : List HostAct) (s : State) : State :=
  { s with
    mem := { sec := [], coef := [], sh := [], io := [] }
    src := s.src.lose (drawsInFlight s)
    cmd := none
    rsp := none
    todo := rest }

/-- The command word an instruction's bits make when it is laid in the command channel for the engine's next turn: nothing
pending on the response channel, and no reset before it. -/
def State.placeCommand (s : State) (w : Word) : State :=
  { s with cmd := some w, rsp := none, todo := s.todo.dropWhile (· == .reset) }

end Sys2Proof.Machine
end

