-- ==== Sys2Proof/Machine/Step.lean ====
section
/-!
DEFINITION. One step of the machine: a reset, or the engine's whole execution of one command word, or the host's part of the
handshake (00_scope R13).
-/

namespace Sys2Proof.Machine

/-- One step (00_scope R13): the agent whose turn it is moves. -/
def step (s : State) : Host.Outcome State Fault Refusal :=
  match nextTurn s with
  | .reset rest => .next (resetEvent rest s)
  | .engine w => runWord w s
  | .host => .next (hostTurn s)

/-- The state with this instruction in the command channel, so that the next step runs it. Log entry 9. -/
def State.withFetchWord (s : State) (nbits w : Nat) : State := s.placeCommand (BitVec.ofNat 32 (w % 2 ^ nbits))

end Sys2Proof.Machine
end

