-- ==== Sys2Proof/Machine/Assembler.lean ====
section
/-!
DEFINITION. The assembler (30_encoding R89, R90): from a line of text to a line, from a line to a command, the four pseudo-
instructions, and the run of an expansion, which stops at the first command that fails.
-/

namespace Sys2Proof

/-! ### From text to a line (30_encoding R89) -/

/-- A blank between words. -/
def isBlank (c : Char) : Bool := c == ' ' || c == '\t'

/-- Cut the blanks at both ends. -/
def trimBlanks (t : List Char) : List Char := ((t.dropWhile isBlank).reverse.dropWhile isBlank).reverse

/-- The value of a digit in base `base`, 10 or 16; hexadecimal digits in either case. Log entry 7. -/
def digitValue (base : Nat) (c : Char) : Option Nat :=
  if '0' ≤ c ∧ c ≤ '9' then some (c.toNat - '0'.toNat)
  else if base = 16 ∧ 'a' ≤ c ∧ c ≤ 'f' then some (c.toNat - 'a'.toNat + 10)
  else if base = 16 ∧ 'A' ≤ c ∧ c ≤ 'F' then some (c.toNat - 'A'.toNat + 10)
  else none

/-- The number a string of digits writes, `acc` being what stands before it. -/
def digitsValue (base : Nat) : List Char → Nat → Option Nat
  | [], acc => some acc
  | c :: cs, acc => (digitValue base c).bind fun d => digitsValue base cs (acc * base + d)

/-- A decimal number or a `0x` hexadecimal number (30_encoding R89). -/
def parseNumber : List Char → Option Nat
  | [] => none
  | '0' :: 'x' :: d :: ds => digitsValue 16 (d :: ds) 0
  | c :: cs => digitsValue 10 (c :: cs) 0

/-- Cut at the commas. -/
def splitCommas : List Char → List (List Char)
  | [] => [[]]
  | c :: cs =>
    if c = ',' then [] :: splitCommas cs
    else match splitCommas cs with
      | [] => [[c]]
      | w :: ws => (c :: w) :: ws

/-- All the operands, or none if one is no number. -/
def parseOperands : List (List Char) → Option (List Nat)
  | [] => some []
  | t :: ts => (parseNumber (trimBlanks t)).bind fun v => (parseOperands ts).map (v :: ·)

/-- One line of text: cut the comment, take the mnemonic, read the operands (30_encoding R89). -/
def parseLine (text : String) : Option Line :=
  let body := trimBlanks (text.toList.takeWhile (· != ';'))
  let name := body.takeWhile (fun c => !isBlank c)
  let rest := trimBlanks (body.dropWhile (fun c => !isBlank c))
  (if rest = [] then some [] else parseOperands (splitCommas rest)).map fun ops => ⟨String.ofList name, ops⟩

/-! ### From a line to a command -/

/-- An operand in its field. -/
def operand (w v : Nat) : BitVec w := BitVec.ofNat w v

/-- The command of a line whose operands are known to fit. -/
def commandOf (name : String) (ops : List Nat) : Option Instr :=
  match name, ops with
  | "FADD", [a, b] => some (.fadd (operand 8 a) (operand 8 b))
  | "FSUB", [a, b] => some (.fsub (operand 8 a) (operand 8 b))
  | "FMUL", [a, b] => some (.fmul (operand 8 a) (operand 8 b))
  | "FDIV", [a, b] => some (.fdiv (operand 8 a) (operand 8 b))
  | "FINV", [a] => some (.finv (operand 8 a))
  | "PBUILD", [s, k] => some (.pbuild (operand 8 s) (operand 8 k))
  | "PEVAL", [x] => some (.peval (operand 8 x))
  | "CCLR", [] => some .cclr
  | "CPUSH", [b] => some (.cpush (operand 8 b))
  | "CRD", [i] => some (.crd (operand 8 i))
  | "SPLIT", [n, k] => some (.split (operand 12 n) (operand 12 k))
  | "SCLR", [] => some .sclr
  | "SPUSH", [b] => some (.spush (operand 8 b))
  | "SRD", [i] => some (.srd (operand 16 i))
  | "COMBINE", [] => some .combine
  | "SHCLR", [] => some .shclr
  | "SHDEL", [s] => some (.shdel (operand 8 s))
  | "SHID", [s] => some (.shid (operand 8 s))
  | "SHLEN", [s] => some (.shlen (operand 8 s))
  | "SHRD", [s, i] => some (.shrd (operand 8 s) (operand 16 i))
  | "ENC", [s] => some (.enc (operand 8 s))
  | "DEC", [] => some .dec
  | "IOCLR", [] => some .ioclr
  | "IOPUSH", [b] => some (.iopush (operand 8 b))
  | "IORD", [i] => some (.iord (operand 16 i))
  | "RDR", [r] => some (.rdr (operand 8 r))
  | _, _ => none

/-- The command a well-formed line stands for; an ill-formed line stands for none (30_encoding R89). -/
def Line.toInstr (l : Line) : Option Instr := if l.wellFormed then commandOf l.mnemonic l.operands else none

/-! ### Pseudo-instructions (30_encoding R90) -/

/-- One push line per byte. -/
def pushLines (name : String) (bytes : List Nat) : List Line := bytes.map fun b => ⟨name, [b]⟩

/-- The lines a line expands to; a line that is no pseudo-instruction is itself (30_encoding R90). `SHARE` needs an id. -/
def expandLine (l : Line) : Option (List Line) :=
  if l.mnemonic = "SECRET" then some (⟨"SCLR", []⟩ :: pushLines "SPUSH" l.operands)
  else if l.mnemonic = "COEFS" then some (⟨"CCLR", []⟩ :: pushLines "CPUSH" l.operands)
  else if l.mnemonic = "IOLOAD" then some (⟨"IOCLR", []⟩ :: pushLines "IOPUSH" l.operands)
  else if l.mnemonic = "SHARE" then
    match l.operands with
    | [] => none
    | id :: ps => some (⟨"IOCLR", []⟩ :: (pushLines "IOPUSH" (id :: ps) ++ [⟨"DEC", []⟩]))
  else some [l]

/-- The commands of a list of lines, none if one is ill-formed. -/
def linesToInstrs : List Line → Option (List Instr)
  | [] => some []
  | l :: ls => l.toInstr.bind fun i => (linesToInstrs ls).map (i :: ·)

/-- The commands of one line of assembly, pseudo-instructions expanded (30_encoding R89, R90). -/
def assembleLine (l : Line) : Option (List Instr) := (expandLine l).bind linesToInstrs

/-- The command words of one line of text. -/
def assembleText (text : String) : Option (List Word) :=
  ((parseLine text).bind assembleLine).map fun is => is.map encode

namespace Machine

/-- The error code of a response word, `R[31:24]` (30_encoding R77). -/
def errField (r : Word) : Byte := r.extractLsb' 24 8

/-- The data of a response word, `R[15:0]` (30_encoding R77). -/
def dataField (r : Word) : Half := r.extractLsb' 0 16

/-- The response on the channel reports success. -/
def State.succeeded (s : State) : Bool :=
  match s.rsp with
  | some r => errField r == 0
  | none => false

/-- The run of an expansion: its commands in order, each after the response to the last, stopping at the first that fails
(30_encoding R90). -/
def runExpansion : List Instr → State → Host.Outcome State Fault Refusal
  | [], s => .next s
  | i :: is, s =>
    match exec i s with
    | .next t => if t.succeeded then runExpansion is t else .next t
    | .fault f => .fault f
    | .refused r => .refused r

end Machine
end Sys2Proof
end

