-- ==== Sys2Proof/Safety.lean ====
section
/-!
DEFINITION. The words the claims are stated in: the invariant of the state (10_state R33), what a run may never do, which command
reads and writes which space (10_state R32), how a command ends, and second forms of the spec's functions that the
claims compare with the model's.
-/

namespace Sys2Proof.Machine

/-! ### Invariant and safe runs -/

/-- What holds of every state a run can reach: LMAX is in its range (00_scope R5), memory has the form of 10_state R33, and no
response waits while a command is in flight (20_memory R59: at most one command is outstanding). -/
def State.Inv (s : State) : Prop :=
  (1 ≤ s.lmax ∧ s.lmax ≤ 65534) ∧ s.mem.wf s.lmax ∧ (s.cmd = none ∨ s.rsp = none)

/-- A step is safe if it answers a next state: nothing in SSS-CORE stops the machine (93, part 1; 60_exceptions R202). -/
def Safe (s : State) : Prop := ∃ t, step s = .next t

/-- No reset is the host's next act. -/
def State.noReset (s : State) : Prop := ∀ rest, s.todo ≠ .reset :: rest

/-- The engine is ready for a command and the host has no response to take (20_memory R59). -/
def State.ready (s : State) : Prop := s.cmd = none ∧ s.rsp = none

/-! ### How a command ends -/

/-- The state with the response `r` on the channel and no command in flight; everything else as in `s`. -/
def State.answered (s : State) (r : Word) : State := { s with cmd := none, rsp := some r }

/-- The response word of a success with data `n` (30_encoding R77: err and bits 23:16 are 0, so the word is the data). -/
def success (n : Nat) : Word := BitVec.ofNat 32 n

/-- The command ends with exactly this response and changes nothing else (60_exceptions R202, 20_memory R54). -/
def Responds (i : Instr) (s : State) (r : Word) : Prop := exec i s = .next (s.answered r)

/-- The engine, given this command word, raises IllegalCommand and changes nothing (60_exceptions R198). -/
def WordIllegal (w : Word) : Prop :=
  ∀ s : State, s.cmd = some w → s.noReset → step s = .next (s.answered 0x80000000)

/-- Every word with this opcode and a bit of this mask set is illegal (30_encoding R86). -/
def ReservedBitsIllegal (op : Nat) (mask : Word) : Prop :=
  ∀ w : Word, w.toNat / 2 ^ 24 = op → w &&& mask ≠ 0 → WordIllegal w

/-- The engine, given the command word with this number, executes this command. -/
def WordExecutes (n : Nat) (i : Instr) : Prop :=
  ∀ s : State, s.cmd = some (BitVec.ofNat 32 n) → s.noReset → step s = exec i s

/-! ### The spaces (10_state R32) -/

/-- A space together with its length register. -/
inductive Space where
  | sec
  | coef
  | sh
  | io
deriving DecidableEq, Repr

/-- The space and its register are the same in both states. -/
def SameSpace (sp : Space) (s t : State) : Prop :=
  match sp with
  | .sec => t.mem.sec = s.mem.sec
  | .coef => t.mem.coef = s.mem.coef
  | .sh => t.mem.sh = s.mem.sh
  | .io => t.mem.io = s.mem.io

/-- The space a cell is in. -/
def Loc.space : Loc → Space
  | .sec _ => .sec
  | .coef _ => .coef
  | .id _ => .sh
  | .pay _ _ => .sh
  | .io _ => .io

/-- The length register of a space. -/
def State.lengthOf (s : State) : Space → Nat
  | .sec => s.slen
  | .coef => s.clen
  | .sh => s.scnt
  | .io => s.iolen

/-- The spaces a command writes, cells or length register: the W entries of the table of 10_state R32. -/
def mayWrite : Instr → List Space
  | .pbuild _ _ => [.coef]
  | .cclr => [.coef]
  | .cpush _ => [.coef]
  | .split _ _ => [.sec, .sh]
  | .sclr => [.sec]
  | .spush _ => [.sec]
  | .combine => [.sec]
  | .shclr => [.sh]
  | .shdel _ => [.sh]
  | .enc _ => [.io]
  | .dec => [.sh]
  | .ioclr => [.io]
  | .iopush _ => [.io]
  | .fadd _ _ => []
  | .fsub _ _ => []
  | .fmul _ _ => []
  | .fdiv _ _ => []
  | .finv _ => []
  | .peval _ => []
  | .crd _ => []
  | .srd _ => []
  | .shid _ => []
  | .shlen _ => []
  | .shrd _ _ => []
  | .iord _ => []
  | .rdr _ => []

/-- The spaces a command reads, cells or length register: the R entries of the table of 10_state R32. -/
def mayRead : Instr → List Space
  | .peval _ => [.coef]
  | .cpush _ => [.coef]
  | .crd _ => [.coef]
  | .split _ _ => [.sec]
  | .spush _ => [.sec]
  | .srd _ => [.sec]
  | .combine => [.sh]
  | .shdel _ => [.sh]
  | .shid _ => [.sh]
  | .shlen _ => [.sh]
  | .shrd _ _ => [.sh]
  | .enc _ => [.sh]
  | .dec => [.io, .sh]
  | .iopush _ => [.io]
  | .iord _ => [.io]
  | .rdr r => match r.toNat with
    | 0 => [.sec]
    | 1 => [.coef]
    | 2 => [.sh]
    | 3 => [.io]
    | _ => []
  | .fadd _ _ => []
  | .fsub _ _ => []
  | .fmul _ _ => []
  | .fdiv _ _ => []
  | .finv _ => []
  | .pbuild _ _ => []
  | .cclr => []
  | .sclr => []
  | .shclr => []
  | .ioclr => []

/-! ### Second forms of the spec's functions -/

/-- The second pseudocode of `mul` in 40_field R102: one step per bit of b from the top, shift and add. -/
def mulByShifts (a b : Byte) : Byte :=
  [7, 6, 5, 4, 3, 2, 1, 0].foldl
    (fun r i =>
      let d : Byte := (r <<< 1) ^^^ (if r.getLsbD 7 then 0x1B else 0x00)
      if b.getLsbD i then d ^^^ a else d) 0

/-- The exclusive-or of all bytes of a list, 0 for the empty list (00_scope R10). -/
def xorAll : List Byte → Byte
  | [] => 0
  | b :: bs => b ^^^ xorAll bs

/-- The field product of all bytes of a list, 0x01 for the empty list (00_scope R10). -/
def prodAll : List Byte → Byte
  | [] => 1
  | b :: bs => fieldMul b (prodAll bs)

/-- The id in slot `i`, 0 where there is none. -/
def State.idOf (s : State) (i : Nat) : Byte := (s.readByte (.id i)).getD 0

/-- Byte `p` of the payload in slot `i`, 0 where there is none. -/
def State.payOf (s : State) (i p : Nat) : Byte := (s.readByte (.pay i p)).getD 0

/-- The indices of the other shares, j ≠ i, of m (44_combiner R150). -/
def others (m i : Nat) : List Nat := (List.range m).filter fun j => j != i

/-- `w` is the weight of share `i` among the m shares of the store: the product over j ≠ i of the quotients
id[j] / (id[j] - id[i]), each the byte that times the divisor gives the dividend (44_combiner R150). -/
def IsWeight (s : State) (m i : Nat) (w : Byte) : Prop :=
  ∃ q : Nat → Byte,
    (∀ j ∈ others m i, fieldMul (q j) (s.idOf j ^^^ s.idOf i) = s.idOf j) ∧ w = prodAll ((others m i).map q)

/-- c[0] + c[1]·x + c[2]·x^2 + ... in the field, term by term (42_polynomial R131). -/
def powerSum (c : List Byte) (x : Byte) : Byte :=
  xorAll ((List.range c.length).map fun i => fieldMul (c.getD i 0) (fieldPow x i))

/-- Coefficient `i` of the polynomial that `SPLIT n, k` builds for position `p` of the secret: the secret byte for i = 0, else
the answer to request number p·(K-1) + (i-1) (41_randomness R122). -/
def splitCoef (s : State) (k p i : Nat) : Byte :=
  if i = 0 then s.mem.sec.getD p 0 else s.src.answer (p * (k - 1) + (i - 1))

/-- The polynomial that `SPLIT n, k` builds for position `p` (43_splitter R141). -/
def splitPoly (s : State) (k p : Nat) : List Byte := (List.range k).map (splitCoef s k p)

/-- One command after another, each from word to response: the state after them and the responses, oldest first.
None would be a stop. -/
def runWords : List Word → State → Option (State × List Word)
  | [], s => some (s, [])
  | w :: ws, s =>
    match runWord w s with
    | .next t => match t.rsp with
      | none => none
      | some r => (runWords ws { t with rsp := none }).map fun (u, rs) => (u, r :: rs)
    | .fault _ => none
    | .refused _ => none

end Sys2Proof.Machine
end

