-- ==== Sys2Proof/Certificates/Slice0/Obligations.lean ====
section
/-!
DEFINITION. The statements about SSS-CORE, from the numbered rules of spec/. A statement that gives an instruction's own effect
concludes that `exec` answers the next state the rule gives (`Responds i s r` is `exec i s = .next` of the state with
response `r` and nothing else changed). No statement assumes a value of a free constant of Config.
-/

open Sys2Proof Sys2Proof.Machine

/-! ### Encoding and decoding -/

/-- DECODE AFTER ENCODE: every command, with every operand at every value its field admits, comes back from its word
(30_encoding R70 to R76, R81 to R84, R88). -/
def Obligations.DecodeOfEncodeIsTheCommand : Prop :=
  ∀ i : Instr, decode (encode i) = .instr i

/-- ENCODE AFTER DECODE: a word that decodes to a command is that command's word, so no two words are one command and no bit of a
legal word is ignored (30_encoding R86, R88). -/
def Obligations.EncodeOfDecodeIsTheWord : Prop :=
  ∀ (w : Word) (i : Instr), decode w = .instr i → encode i = w

/-- 30_encoding R71 to R75: where each format puts its operands, as a number, for every command that uses it. Format NK is in
`SplitWritesSharesInOrder`. -/
def Obligations.CommandWordsByFormat : Prop :=
  ((encode .cclr).toNat = 0x22000000 ∧ (encode .sclr).toNat = 0x31000000 ∧ (encode .shclr).toNat = 0x41000000 ∧
    (encode .ioclr).toNat = 0x52000000 ∧ (encode .combine).toNat = 0x40000000 ∧ (encode .dec).toNat = 0x51000000) ∧
  (∀ a : Byte,
    (encode (.finv a)).toNat = 0x14000000 + a.toNat * 2 ^ 16 ∧ (encode (.peval a)).toNat = 0x21000000 + a.toNat * 2 ^ 16 ∧
    (encode (.cpush a)).toNat = 0x23000000 + a.toNat * 2 ^ 16 ∧ (encode (.crd a)).toNat = 0x24000000 + a.toNat * 2 ^ 16 ∧
    (encode (.spush a)).toNat = 0x32000000 + a.toNat * 2 ^ 16 ∧ (encode (.shdel a)).toNat = 0x42000000 + a.toNat * 2 ^ 16 ∧
    (encode (.shid a)).toNat = 0x43000000 + a.toNat * 2 ^ 16 ∧ (encode (.shlen a)).toNat = 0x44000000 + a.toNat * 2 ^ 16 ∧
    (encode (.enc a)).toNat = 0x50000000 + a.toNat * 2 ^ 16 ∧ (encode (.iopush a)).toNat = 0x53000000 + a.toNat * 2 ^ 16 ∧
    (encode (.rdr a)).toNat = 0x60000000 + a.toNat * 2 ^ 16) ∧
  (∀ a b : Byte,
    (encode (.fadd a b)).toNat = 0x10000000 + a.toNat * 2 ^ 16 + b.toNat * 2 ^ 8 ∧
    (encode (.fsub a b)).toNat = 0x11000000 + a.toNat * 2 ^ 16 + b.toNat * 2 ^ 8 ∧
    (encode (.fmul a b)).toNat = 0x12000000 + a.toNat * 2 ^ 16 + b.toNat * 2 ^ 8 ∧
    (encode (.fdiv a b)).toNat = 0x13000000 + a.toNat * 2 ^ 16 + b.toNat * 2 ^ 8 ∧
    (encode (.pbuild a b)).toNat = 0x20000000 + a.toNat * 2 ^ 16 + b.toNat * 2 ^ 8) ∧
  (∀ idx : Half, (encode (.srd idx)).toNat = 0x33000000 + idx.toNat ∧ (encode (.iord idx)).toNat = 0x54000000 + idx.toNat) ∧
  (∀ (a : Byte) (idx : Half), (encode (.shrd a idx)).toNat = 0x45000000 + a.toNat * 2 ^ 16 + idx.toNat)

/-- 30_encoding R88 against the opcode table: a word is a command exactly when it matches a row's fixed bits, and no word matches
two rows. -/
def Obligations.DecoderAcceptsExactlyTheTable : Prop :=
  (∀ w : Word, (∃ i, decode w = .instr i) ↔ ∃ r ∈ opcodeRows, w &&& r.mask = r.pattern) ∧
  opcodeRows.Pairwise (fun r q => ∀ w : Word, ¬ (w &&& r.mask = r.pattern ∧ w &&& q.mask = q.pattern))

/-- 30_encoding R85: every reserved opcode, whatever the other bits, raises IllegalCommand and changes nothing; so do the
all-zero and the all-ones word. -/
def Obligations.ReservedOpcodesAreIllegal : Prop :=
  (∀ w : Word,
    (let op := w.toNat / 2 ^ 24
     op ≤ 0x0F ∨ (0x15 ≤ op ∧ op ≤ 0x1F) ∨ (0x25 ≤ op ∧ op ≤ 0x2F) ∨ (0x34 ≤ op ∧ op ≤ 0x3F) ∨
      (0x46 ≤ op ∧ op ≤ 0x4F) ∨ (0x55 ≤ op ∧ op ≤ 0x5F) ∨ 0x61 ≤ op) → WordIllegal w) ∧
  WordIllegal 0x00000000 ∧ WordIllegal 0xFFFFFFFF

/-- 30_encoding R86: a set reserved bit of a defined opcode raises IllegalCommand and changes nothing; formats AI and NK have no
reserved bits, so every word of theirs is a command. -/
def Obligations.ReservedBitsAreIllegal : Prop :=
  (∀ op ∈ [0x22, 0x31, 0x41, 0x52, 0x40, 0x51], ReservedBitsIllegal op 0x00FFFFFF) ∧
  (∀ op ∈ [0x14, 0x21, 0x23, 0x24, 0x32, 0x42, 0x43, 0x44, 0x50, 0x53, 0x60], ReservedBitsIllegal op 0x0000FFFF) ∧
  (∀ op ∈ [0x10, 0x11, 0x12, 0x13, 0x20], ReservedBitsIllegal op 0x000000FF) ∧
  (∀ op ∈ [0x33, 0x54], ReservedBitsIllegal op 0x00FF0000) ∧
  (∀ w : Word, w.toNat / 2 ^ 24 = 0x45 ∨ w.toNat / 2 ^ 24 = 0x30 → ∃ i, decode w = .instr i)

/-- 60_exceptions R198: for the word in flight, IllegalCommand is the answer exactly when the word is no command's word, and then
nothing else changes; it does not depend on the state. -/
def Obligations.IllegalCommandExactly : Prop :=
  ∀ (w : Word) (s : State), s.cmd = some w → s.noReset →
    (step s = .next (s.answered 0x80000000) ↔ ∀ i : Instr, encode i ≠ w)

/-- Sanity of the decoder on the example words of 30_encoding R89, which the spec writes out. -/
def Obligations.SpecExampleWordsDecode : Prop :=
  decode 0x12578300 = .instr (.fmul 0x57 0x83) ∧ decode 0x14530000 = .instr (.finv 0x53) ∧
  decode 0x20480300 = .instr (.pbuild 0x48 3) ∧ decode 0x30005003 = .instr (.split 5 3) ∧
  decode 0x33000001 = .instr (.srd 1) ∧ decode 0x45020001 = .instr (.shrd 2 1) ∧
  decode 0x40000000 = .instr .combine ∧ decode 0x60020000 = .instr (.rdr 2)

/-! ### The assembler -/

/-- 30_encoding R89: the line that prints a command is well-formed and assembles to it, and a line assembles to a command only if
it is that command's line. -/
def Obligations.AssemblerInvertsPrinting : Prop :=
  (∀ i : Instr, i.wellFormed = true ∧ i.toLine.toInstr = some i) ∧
  (∀ (l : Line) (i : Instr), l.toInstr = some i → i.toLine = l)

/-- 30_encoding R90: the four expansions, for all bytes; an expansion stops at the first command that fails; and `SHARE id` with
no payload byte fails with MalformedShare, the buffer holding the id alone. -/
def Obligations.PseudoInstructionsExpand : Prop :=
  (∀ bs : List Byte,
    assembleLine ⟨"SECRET", bs.map BitVec.toNat⟩ = some (.sclr :: bs.map .spush) ∧
    assembleLine ⟨"COEFS", bs.map BitVec.toNat⟩ = some (.cclr :: bs.map .cpush) ∧
    assembleLine ⟨"IOLOAD", bs.map BitVec.toNat⟩ = some (.ioclr :: bs.map .iopush)) ∧
  (∀ (id : Byte) (ps : List Byte),
    assembleLine ⟨"SHARE", id.toNat :: ps.map BitVec.toNat⟩ = some (.ioclr :: ((id :: ps).map .iopush ++ [.dec]))) ∧
  (∀ (is js : List Instr) (s t : State), runExpansion is s = .next t → is ≠ [] → t.succeeded = false →
    runExpansion (is ++ js) s = .next t) ∧
  (∀ (id : Byte) (s : State), runExpansion [.ioclr, .iopush id, .dec] s =
    .next { s with mem := { s.mem with io := [id] }, cmd := none, rsp := some 0x08000000 })

/-- The pseudo-instruction SECRET does what it is for: on a build that holds them, it leaves exactly its bytes in SEC
(30_encoding R90 with 46_buffer_access R173, R174). -/
def Obligations.SecretLoadsTheSecretBuffer : Prop :=
  ∀ (bs : List Byte) (s : State), bs.length ≤ s.lmax →
    runExpansion (.sclr :: bs.map .spush) s =
      .next { s with mem := { s.mem with sec := bs }, cmd := none, rsp := some 0 }

/-! ### Steps, the handshake and reset -/

/-- A STEP RUNS THE DECODED COMMAND: with a command word in flight and no reset pending, step is exec of the command the word
decodes to; exec is given the whole state, so nothing is added around it (00_scope R13, 30_encoding R88). -/
def Obligations.StepRunsTheDecodedCommand : Prop :=
  ∀ (s : State) (w : Word) (i : Instr), s.cmd = some w → s.noReset → decode w = .instr i → step s = exec i s

/-- Every command ends and every step moves: no fault and no refusal is ever answered, from any state (93, part 1, last paragraph;
70_reset R235). -/
def Obligations.EveryStepIsSafe : Prop :=
  (∀ (i : Instr) (s : State), ∃ t, exec i s = .next t) ∧ ∀ s : State, Safe s

/-- 20_memory R59 and 70_reset R226, one command at a time: while a response waits the next word is held and the host takes the
response first; when the engine is ready the word is accepted; while a command is in flight a further word is not
accepted, whatever the host has to send. The form of the host's side is the model's (log entries 6 and 9). -/
def Obligations.OneCommandAtATime : Prop :=
  (∀ (s : State) (r w : Word) (rest : List HostAct), s.cmd = none → s.rsp = some r → s.todo = .send w :: rest →
    step s = .next { s with rsp := none, received := s.received ++ [r] }) ∧
  (∀ (s : State) (w : Word) (rest : List HostAct), s.ready → s.todo = .send w :: rest →
    step s = .next { s with cmd := some w, todo := rest }) ∧
  (∀ (s t : State) (w : Word), s.cmd = some w → s.noReset → step s = .next t →
    t.todo = s.todo ∧ t.received = s.received ∧ t.cmd = none ∧ ∃ r, t.rsp = some r)

/-- REFINEMENT: the handshake, step by step, is the commands run one after another: a host that sends words and waits for each
response is served in three steps a word, the state is that of running the words in order, and it has taken one response per
command in command order (20_memory R56, 30_encoding R77; the form of the host's side is log entry 9). -/
def Obligations.HandshakeRefinesSequentialRun : Prop :=
  ∀ (ws : List Word) (rest : List HostAct) (s : State), s.ready →
    s.todo = ws.flatMap (fun w => [.send w, .await]) ++ rest →
    ∃ u rs, runWords ws { s with todo := rest } = some (u, rs) ∧ rs.length = ws.length ∧
      Sys2Proof.core.run (3 * ws.length) s = .next { u with received := s.received ++ rs }

/-- 10_state R37, 70_reset R220: a reset, from any state, leaves all four registers 0, no readable cell and no occupied slot, no
command in flight and no response, and the engine ready. That a response not yet taken is gone is the model's reading (log
entry 5). -/
def Obligations.ResetEmptiesEverything : Prop :=
  ∀ (s : State) (rest : List HostAct), s.todo = .reset :: rest →
    ∃ t, step s = .next t ∧ t.slen = 0 ∧ t.clen = 0 ∧ t.scnt = 0 ∧ t.iolen = 0 ∧ (∀ l, t.readByte l = none) ∧
      (∀ k, t.slotLen k = none) ∧ t.ready

/-- 70_reset R221: a reset that comes while a command is in flight abandons it: the host gets no response to it, nothing it would
have written is kept, and the answers the source had given are lost, between none and all it would have asked for; what the
host took before and what it does next stand. How many answers are lost is a free value (log entry 4). -/
def Obligations.ResetAbandonsTheCommandInFlight : Prop :=
  ∀ (s : State) (w : Word) (rest : List HostAct), s.ready → s.todo = .send w :: .reset :: rest →
    ∃ t, Sys2Proof.core.run 2 s = .next t ∧ t.mem = State.reset.mem ∧ t.ready ∧ t.received = s.received ∧ t.todo = rest ∧
      ∃ k, k ≤ drawsInFlight { s with cmd := some w } ∧ t.src.fixed = s.src.fixed.drop k ∧ s.src.free ≤ t.src.free

/-- The state after reset meets the invariant (10_state R33, R37; LMAX in its range by 00_scope R5). -/
def Obligations.ResetStateMeetsTheInvariant : Prop := State.reset.Inv

/-- INVARIANT: every step, from every state that meets it, keeps 10_state R33 (a) and (b) (lengths within capacity; slot lengths
at most LMAX; no slot with id 0), LMAX in its range, and at most one command outstanding (20_memory R59). -/
def Obligations.EveryStepKeepsTheInvariant : Prop :=
  ∀ s t : State, s.Inv → step s = .next t → t.Inv ∧ t.lmax = s.lmax

/-! ### Errors -/

/-- 60_exceptions R202: a command word that ends with an error, IllegalCommand included, writes no register and no cell and draws no
byte; the response is the code and data 0, nothing else differs, and the engine has no command in flight. -/
def Obligations.FailedCommandChangesNothing : Prop :=
  ∀ (w : Word) (s t : State) (r : Word), runWord w s = .next t → t.rsp = some r → errField r ≠ 0 →
    t = s.answered r ∧ dataField r = 0 ∧ ∃ e : Err, r.toNat = e.code.toNat * 2 ^ 24

/-- 60_exceptions R204: no error is sticky. After a command word that failed, every command word does exactly what it would have done
without it, and the same word gives the same error. -/
def Obligations.NoErrorIsSticky : Prop :=
  ∀ (w : Word) (s t : State) (r : Word), runWord w s = .next t → t.rsp = some r → errField r ≠ 0 →
    (∀ v : Word, runWord v t = runWord v s) ∧ runWord w t = .next t

/-- 60_exceptions R190: InvalidThreshold (0x01) exactly for SPLIT with K < 2, PBUILD with k = 0, PEVAL with CLEN = 0. -/
def Obligations.InvalidThresholdExactly : Prop :=
  ∀ (i : Instr) (s : State), Responds i s 0x01000000 ↔
    ((∃ n k, i = .split n k ∧ k.toNat < 2) ∨ (∃ b, i = .pbuild b 0) ∨ (∃ x, i = .peval x ∧ s.clen = 0))

/-- 60_exceptions R191: InvalidShareCount (0x02) exactly for SPLIT with K ≥ 2 and N < K. -/
def Obligations.InvalidShareCountExactly : Prop :=
  ∀ (i : Instr) (s : State), Responds i s 0x02000000 ↔ ∃ n k, i = .split n k ∧ 2 ≤ k.toNat ∧ n.toNat < k.toNat

/-- 60_exceptions R192: ShareCountOverflow (0x03) exactly for SPLIT with K ≥ 2, N ≥ K and N > 255. -/
def Obligations.ShareCountOverflowExactly : Prop :=
  ∀ (i : Instr) (s : State), Responds i s 0x03000000 ↔
    ∃ n k, i = .split n k ∧ 2 ≤ k.toNat ∧ k.toNat ≤ n.toNat ∧ 255 < n.toNat

/-- 60_exceptions R193 and 44_combiner R154: DomainError (0x04) exactly for FDIV by 0 and FINV of 0; in particular COMBINE never
reports it, in any state. -/
def Obligations.DomainErrorExactly : Prop :=
  ∀ (i : Instr) (s : State), Responds i s 0x04000000 ↔ ((∃ a, i = .fdiv a 0) ∨ i = .finv 0)

/-- 60_exceptions R194: InsufficientShares (0x05) exactly for COMBINE with SCNT < 2. -/
def Obligations.InsufficientSharesExactly : Prop :=
  ∀ (i : Instr) (s : State), Responds i s 0x05000000 ↔ (i = .combine ∧ s.scnt < 2)

/-- 60_exceptions R195: MalformedShares (0x06) exactly for COMBINE with SCNT ≥ 2 and a slot whose length differs from slot 0's. -/
def Obligations.MalformedSharesExactly : Prop :=
  ∀ (i : Instr) (s : State), Responds i s 0x06000000 ↔
    (i = .combine ∧ 2 ≤ s.scnt ∧ ∃ k < s.scnt, s.slotLen k ≠ s.slotLen 0)

/-- 60_exceptions R196: DuplicateShareId (0x07) exactly for COMBINE with SCNT ≥ 2, equal lengths, and two slots with one id. -/
def Obligations.DuplicateShareIdExactly : Prop :=
  ∀ (i : Instr) (s : State), Responds i s 0x07000000 ↔
    (i = .combine ∧ 2 ≤ s.scnt ∧ (∀ k < s.scnt, s.slotLen k = s.slotLen 0) ∧
      ∃ j k, j < k ∧ k < s.scnt ∧ s.readByte (.id j) = s.readByte (.id k))

/-- 60_exceptions R197: MalformedShare (0x08) exactly for DEC with IOLEN < 2 or IO[0] = 0. -/
def Obligations.MalformedShareExactly : Prop :=
  ∀ (i : Instr) (s : State), Responds i s 0x08000000 ↔ (i = .dec ∧ (s.iolen < 2 ∨ s.readByte (.io 0) = some 0))

/-- 60_exceptions R199: BadAddress (0x81) exactly where an operand names a cell, slot or register that cannot be read. -/
def Obligations.BadAddressExactly : Prop :=
  ∀ (i : Instr) (s : State), Responds i s 0x81000000 ↔
    ((∃ k, i = .crd k ∧ s.clen ≤ k.toNat) ∨ (∃ k, i = .srd k ∧ s.slen ≤ k.toNat) ∨ (∃ k, i = .iord k ∧ s.iolen ≤ k.toNat) ∨
     (∃ k, (i = .shid k ∨ i = .shlen k ∨ i = .shdel k ∨ i = .enc k) ∧ s.scnt ≤ k.toNat) ∨
     (∃ k idx, i = .shrd k idx ∧ (s.scnt ≤ k.toNat ∨ ∃ len, s.slotLen k.toNat = some len ∧ len ≤ idx.toNat)) ∨
     (∃ r, i = .rdr r ∧ 5 ≤ r.toNat))

/-- 60_exceptions R200: CapacityExceeded (0x82) exactly where an append finds its buffer full; for DEC after its MalformedShare
checks. -/
def Obligations.CapacityExceededExactly : Prop :=
  ∀ (i : Instr) (s : State), Responds i s 0x82000000 ↔
    ((∃ b, i = .cpush b ∧ s.clen = 255) ∨ (∃ b, i = .spush b ∧ s.slen = s.lmax) ∨ (∃ b, i = .iopush b ∧ s.iolen = s.lmax + 1) ∨
     (i = .dec ∧ s.scnt = 255 ∧ ¬ (s.iolen < 2 ∨ s.readByte (.io 0) = some 0)))

/-! ### Field -/

/-- 40_field R105, R106: FADD and FSUB answer the exclusive-or of the two bytes, in every state; a set reserved bit is illegal;
FADD a, a is 0, FADD a, 0 is a; FSUB is FADD and is symmetric. -/
def Obligations.AddAndSubtractAreExclusiveOr : Prop :=
  (∀ (a b : Byte) (s : State), Responds (.fadd a b) s (success (a.toNat ^^^ b.toNat)) ∧
    Responds (.fsub a b) s (success (a.toNat ^^^ b.toNat)) ∧ exec (.fsub a b) s = exec (.fadd a b) s ∧
    exec (.fsub a b) s = exec (.fsub b a) s) ∧
  (∀ (a : Byte) (s : State), Responds (.fadd a a) s (success 0) ∧ Responds (.fadd a 0) s (success a.toNat)) ∧
  (∀ a b : Byte, WordExecutes (0x10000000 + a.toNat * 2 ^ 16 + b.toNat * 2 ^ 8) (.fadd a b) ∧
    WordExecutes (0x11000000 + a.toNat * 2 ^ 16 + b.toNat * 2 ^ 8) (.fsub a b)) ∧
  ReservedBitsIllegal 0x10 0xFF ∧ ReservedBitsIllegal 0x11 0xFF

/-- 40_field R107: FMUL answers `mul(a, b)`, in every state, and the corner cases of the rule. -/
def Obligations.MultiplyAnswersTheProduct : Prop :=
  (∀ (a b : Byte) (s : State), Responds (.fmul a b) s (success (fieldMul a b).toNat)) ∧
  (∀ (a : Byte) (s : State), Responds (.fmul a 0) s (success 0) ∧ Responds (.fmul 0 a) s (success 0) ∧
    Responds (.fmul a 1) s (success a.toNat)) ∧
  (∀ s : State, Responds (.fmul 0x02 0x80) s (success 0x1B) ∧ Responds (.fmul 0x57 0x83) s (success 0xC1)) ∧
  (∀ (a b : Byte) (s : State), a ≠ 0 → b ≠ 0 → ¬ Responds (.fmul a b) s (success 0)) ∧
  (∀ a b : Byte, WordExecutes (0x12000000 + a.toNat * 2 ^ 16 + b.toNat * 2 ^ 8) (.fmul a b)) ∧
  ReservedBitsIllegal 0x12 0xFF

/-- 40_field R103, R108: FDIV by b ≠ 0 answers a times the inverse of b, the one byte whose product with b is a; by 0 it is
DomainError whatever a is; and the corner cases of the rule. -/
def Obligations.DivideAnswersTheQuotient : Prop :=
  (∀ (a b : Byte) (s : State), b ≠ 0 → ∃ v w : Byte, fieldMul b w = 1 ∧ v = fieldMul a w ∧ fieldMul v b = a ∧
    (∀ u, fieldMul u b = a → u = v) ∧ Responds (.fdiv a b) s (success v.toNat)) ∧
  (∀ (a : Byte) (s : State), Responds (.fdiv a 0) s 0x04000000 ∧ Responds (.fdiv a 1) s (success a.toNat)) ∧
  (∀ (b : Byte) (s : State), b ≠ 0 → Responds (.fdiv 0 b) s (success 0) ∧ Responds (.fdiv b b) s (success 1)) ∧
  (∀ a b : Byte, WordExecutes (0x13000000 + a.toNat * 2 ^ 16 + b.toNat * 2 ^ 8) (.fdiv a b)) ∧
  ReservedBitsIllegal 0x13 0xFF

/-- 40_field R104, R109: FINV of a ≠ 0 answers the one byte v with mul(a, v) = 1, which is a^254, and FINV of it gives a back; of
0 it is DomainError. -/
def Obligations.InverseAnswersTheOneInverse : Prop :=
  (∀ (a : Byte) (s : State), a ≠ 0 → ∃ v : Byte, fieldMul a v = 1 ∧ (∀ u, fieldMul a u = 1 → u = v) ∧ v = fieldPow a 254 ∧
    Responds (.finv a) s (success v.toNat) ∧ Responds (.finv v) s (success a.toNat)) ∧
  (∀ s : State, Responds (.finv 0) s 0x04000000 ∧ Responds (.finv 1) s (success 1)) ∧
  (∀ a : Byte, WordExecutes (0x14000000 + a.toNat * 2 ^ 16) (.finv a)) ∧
  ReservedBitsIllegal 0x14 0xFFFF

/-- 40_field R102: the multiplier is the remainder of the polynomial product over GF(2) on division by x^8 + x^4 + x^3 + x + 1, bit i
of a byte being the coefficient of x^i (00_scope R8). -/
def Obligations.MultiplyIsThePolynomialRemainder : Prop :=
  ∀ a b : Byte,
    let p : Byte → Polynomial (ZMod 2) := fun c => ∑ i ∈ Finset.range 8, if c.getLsbD i then Polynomial.X ^ i else 0
    p (fieldMul a b) =
      (p a * p b) %ₘ (Polynomial.X ^ 8 + Polynomial.X ^ 4 + Polynomial.X ^ 3 + Polynomial.X + 1 : Polynomial (ZMod 2))

/-- 40_field R102: the two pseudocodes of `mul` give the same byte for all 65536 operand pairs. -/
def Obligations.ShiftAndAddEqualsMultiplyThenReduce : Prop := ∀ a b : Byte, mulByShifts a b = fieldMul a b

/-- 40_field R110: the field laws (a) to (f). -/
def Obligations.FieldLaws : Prop :=
  (∀ a b c : Byte, fieldAdd a b = fieldAdd b a ∧ fieldAdd (fieldAdd a b) c = fieldAdd a (fieldAdd b c) ∧ fieldAdd a 0 = a ∧
    fieldAdd a a = 0 ∧ fieldSub a b = fieldAdd a b) ∧
  (∀ a b c : Byte, fieldMul a b = fieldMul b a ∧ fieldMul (fieldMul a b) c = fieldMul a (fieldMul b c) ∧ fieldMul a 1 = a ∧
    fieldMul a 0 = 0) ∧
  (∀ a b c : Byte, fieldMul a (fieldAdd b c) = fieldAdd (fieldMul a b) (fieldMul a c)) ∧
  (∀ a : Byte, a ≠ 0 → ∃ v, fieldInv a = some v ∧ fieldMul a v = 1) ∧
  (∀ a b : Byte, b ≠ 0 → fieldDiv (fieldMul a b) b = some a) ∧
  (∀ a b : Byte, fieldMul a b = 0 → a = 0 ∨ b = 0)

/-- 40_field R113: the byte 0x03 generates all 255 non-zero bytes and multiplication adds its logarithms; 0x02 has order 51 and
does not. -/
def Obligations.ThreeGeneratesTheLogTables : Prop :=
  (∀ a : Byte, a ≠ 0 → ∃ i < 255, fieldPow 0x03 i = a) ∧ fieldPow 0x03 255 = 1 ∧
  (∀ i j : Nat, i < 255 → j < 255 → fieldMul (fieldPow 0x03 i) (fieldPow 0x03 j) = fieldPow 0x03 ((i + j) % 255)) ∧
  fieldPow 0x02 51 = 1 ∧ ∀ i, 0 < i → i < 51 → fieldPow 0x02 i ≠ 1

/-! ### Polynomial Engine -/

/-- 42_polynomial R131: Horner's method from the top coefficient c down (cs being the others, the next lower first) has the value c[0] + c[1]·x + ... + c[K-1]·x^(K-1); K = 1
gives c[0] for every x, x = 0 gives c[0], x = 1 gives the exclusive-or of all coefficients. -/
def Obligations.HornerHasThePowerSumValue : Prop :=
  ∀ (c : Byte) (cs : List Byte) (x : Byte),
    evalPoly (cs.reverse ++ [c]) x = cs.foldl (fun y d => fieldAdd (fieldMul y x) d) c ∧
    evalPoly (c :: cs) x = powerSum (c :: cs) x ∧ evalPoly [c] x = c ∧ evalPoly (c :: cs) 0 = c ∧
    evalPoly (c :: cs) 1 = xorAll (c :: cs)

/-- 42_polynomial R132: PBUILD s, k with k ≥ 1 leaves COEF = s and the next k-1 answers of the source in order, CLEN = k, the source
k-1 requests further and nothing else changed; with k = 0 it raises InvalidThreshold and changes nothing. -/
def Obligations.BuildFillsTheCoefficientBuffer : Prop :=
  (∀ (b k : Byte) (s : State), k ≠ 0 → exec (.pbuild b k) s =
    .next { s with
      mem := { s.mem with coef := b :: (List.range (k.toNat - 1)).map s.src.answer }
      src := s.src.after (k.toNat - 1)
      cmd := none
      rsp := some (success 0) }) ∧
  (∀ (b k : Byte) (s t : State), exec (.pbuild b k) s = .next t → k ≠ 0 → t.clen = k.toNat) ∧
  (∀ (b : Byte) (s : State), Responds (.pbuild b 0) s 0x01000000) ∧
  (∀ b k : Byte, WordExecutes (0x20000000 + b.toNat * 2 ^ 16 + k.toNat * 2 ^ 8) (.pbuild b k)) ∧
  ReservedBitsIllegal 0x20 0xFF

/-- 42_polynomial R133, R134: PEVAL x answers the value of the polynomial in COEF at x, writing nothing; x = 0 is legal and
answers COEF[0]; x = 1 answers the exclusive-or of all; one coefficient answers itself; with CLEN = 0 it raises InvalidThreshold. -/
def Obligations.EvaluateAnswersTheValue : Prop :=
  (∀ (x : Byte) (s : State), s.clen ≠ 0 → Responds (.peval x) s (success (powerSum s.mem.coef x).toNat)) ∧
  (∀ (c : Byte) (cs : List Byte) (s : State), s.mem.coef = c :: cs → Responds (.peval 0) s (success c.toNat) ∧
    Responds (.peval 1) s (success (xorAll (c :: cs)).toNat) ∧
    (cs = [] → ∀ x, Responds (.peval x) s (success c.toNat))) ∧
  (∀ (x : Byte) (s : State), s.clen = 0 → Responds (.peval x) s 0x01000000) ∧
  (∀ x : Byte, WordExecutes (0x21000000 + x.toNat * 2 ^ 16) (.peval x)) ∧
  ReservedBitsIllegal 0x21 0xFFFF

/-! ### Randomness -/

/-- 41_randomness R122: how many requests each command makes, and that a command which fails makes none: the source moves by
exactly `drawsOf`, k-1 for PBUILD, L·(K-1) for a legal SPLIT and 0 for every other command. -/
def Obligations.DrawsAreExactlyCounted : Prop :=
  (∀ (i : Instr) (s t : State), exec i s = .next t → t.src = s.src.after (drawsOf i s)) ∧
  (∀ (b k : Byte) (s : State), drawsOf (.pbuild b k) s = k.toNat - 1) ∧
  (∀ (n k : Count12) (s : State), 2 ≤ k.toNat → k.toNat ≤ n.toNat → n.toNat ≤ 255 →
    drawsOf (.split n k) s = s.slen * (k.toNat - 1)) ∧
  (∀ (i : Instr) (s t : State) (r : Word), exec i s = .next t → t.rsp = some r → errField r ≠ 0 → drawsOf i s = 0) ∧
  (∀ (i : Instr) (s : State), (∀ b k, i ≠ .pbuild b k) → (∀ n k, i ≠ .split n k) → drawsOf i s = 0)

/-! ### Splitter -/

/-- 43_splitter R141 (with the draw order of 41_randomness R122): a legal SPLIT n, k leaves N shares, slot s with id s+1, length L
and byte p of the payload the value at s+1 of the polynomial of position p, whose constant term is SEC[p] and whose other
coefficients are the answers p·(K-1) to p·(K-1)+K-2; SCNT = N, SLEN = 0, COEF and IO as before; the three failures in order. -/
def Obligations.SplitWritesSharesInOrder : Prop :=
  (∀ (n k : Count12) (s : State), 2 ≤ k.toNat → k.toNat ≤ n.toNat → n.toNat ≤ 255 →
    ∃ t, exec (.split n k) s = .next t ∧ t.rsp = some (success 0) ∧ t.cmd = none ∧ t.scnt = n.toNat ∧ t.slen = 0 ∧
      (∀ j < n.toNat, t.readByte (.id j) = some (BitVec.ofNat 8 (j + 1)) ∧ t.slotLen j = some s.slen ∧
        ∀ p < s.slen, t.readByte (.pay j p) = some (evalPoly (splitPoly s k.toNat p) (BitVec.ofNat 8 (j + 1)))) ∧
      (∀ p < s.slen, (splitPoly s k.toNat p).head? = s.readByte (.sec p)) ∧
      t.src = s.src.after (s.slen * (k.toNat - 1)) ∧ SameSpace .coef s t ∧ SameSpace .io s t ∧ t.lmax = s.lmax ∧
      t.todo = s.todo ∧ t.received = s.received) ∧
  (∀ (n k : Count12) (s : State), k.toNat < 2 → Responds (.split n k) s 0x01000000) ∧
  (∀ (n k : Count12) (s : State), 2 ≤ k.toNat → n.toNat < k.toNat → Responds (.split n k) s 0x02000000) ∧
  (∀ (n k : Count12) (s : State), 2 ≤ k.toNat → k.toNat ≤ n.toNat → 255 < n.toNat → Responds (.split n k) s 0x03000000) ∧
  (∀ n k : Count12, WordExecutes (0x30000000 + n.toNat * 2 ^ 12 + k.toNat) (.split n k))

/-- 43_splitter R143: the empty secret splits: no draw, N slots with ids 1 to N and no payload, SLEN stays 0; the preconditions
are still tested; and `ENC` of such a slot gives a 1-byte buffer that `DEC` refuses. -/
def Obligations.EmptySecretSplits : Prop :=
  (∀ (n k : Count12) (s : State), s.mem.sec = [] → 2 ≤ k.toNat → k.toNat ≤ n.toNat → n.toNat ≤ 255 →
    exec (.split n k) s =
      .next { s with
        mem := { s.mem with sh := (List.range n.toNat).map fun j => { id := BitVec.ofNat 8 (j + 1), pay := [] } }
        cmd := none
        rsp := some (success 0) }) ∧
  (∀ s : State, s.mem.sec = [] → Responds (.split 1 1) s 0x01000000) ∧
  (∀ (j : Byte) (s : State), s.slotLen j.toNat = some 0 →
    ∃ t, exec (.enc j) s = .next t ∧ t.iolen = 1 ∧ Responds .dec t 0x08000000)

/-! ### Combiner -/

/-- 44_combiner R150, R151: COMBINE on m ≥ 2 shares of one length and distinct ids leaves in SEC, at every position p, the sum over i
of payload byte times weight, each weight the product over j ≠ i of id[j] / (id[j] - id[i]), and not 0 when no id is; nothing else changes;
the three failures in their order. -/
def Obligations.CombineInterpolatesAtZero : Prop :=
  (∀ (s : State) (len : Nat), 2 ≤ s.scnt → (∀ k < s.scnt, s.slotLen k = some len) → (s.mem.sh.map Share.id).Nodup →
    ∃ w : Nat → Byte, (∀ i < s.scnt, IsWeight s s.scnt i (w i)) ∧
      ((∀ x ∈ s.mem.sh, x.id ≠ 0) → ∀ i < s.scnt, w i ≠ 0) ∧
      exec .combine s =
        .next { s with
          mem := { s.mem with
            sec := (List.range len).map fun p =>
              xorAll ((List.range s.scnt).map fun i => fieldMul (s.payOf i p) (w i)) }
          cmd := none
          rsp := some (success 0) }) ∧
  (∀ s : State, s.scnt < 2 → Responds .combine s 0x05000000) ∧
  (∀ s : State, 2 ≤ s.scnt → (∃ k < s.scnt, s.slotLen k ≠ s.slotLen 0) → Responds .combine s 0x06000000) ∧
  (∀ s : State, 2 ≤ s.scnt → (∀ k < s.scnt, s.slotLen k = s.slotLen 0) → ¬ (s.mem.sh.map Share.id).Nodup →
    Responds .combine s 0x07000000) ∧
  WordExecutes 0x40000000 .combine ∧ ReservedBitsIllegal 0x40 0xFFFFFF

/-- 44_combiner R152: the order of the slots does not matter: any arrangement of the same shares gives the same SEC. -/
def Obligations.CombineIgnoresSlotOrder : Prop :=
  ∀ (s t : State) (sh : List Share), s.mem.sh.Perm sh → exec .combine s = .next t → t.rsp = some (success 0) →
    ∃ u, exec .combine (s.setSh sh) = .next u ∧ u.rsp = some (success 0) ∧ u.mem.sec = t.mem.sec

/-- 44_combiner R153: too few or foreign shares are not detected: COMBINE succeeds on any two or more shares of equal length and
distinct ids, and the bytes are a function of the shares alone, whatever else the two states hold. -/
def Obligations.CombineIsAFunctionOfTheShares : Prop :=
  ∀ (s : State) (len : Nat), 2 ≤ s.scnt → (∀ k < s.scnt, s.slotLen k = some len) → (s.mem.sh.map Share.id).Nodup →
    ∃ bytes : List Byte, bytes.length = len ∧ ∀ u : State, u.mem.sh = s.mem.sh →
      exec .combine u = .next { u with mem := { u.mem with sec := bytes }, cmd := none, rsp := some (success 0) }

/-- 44_combiner R155 (DOC0 §8 item 1): split, keep any at least K of the N shares in any order, combine: the secret is
back, for every secret, every legal N and K and every sequence of draws. -/
def Obligations.AnyThresholdSharesRecoverTheSecret : Prop :=
  ∀ (n k : Count12) (s t : State) (kept : List Share), 2 ≤ k.toNat → k.toNat ≤ n.toNat → n.toNat ≤ 255 →
    exec (.split n k) s = .next t → kept ⊆ t.mem.sh → (kept.map Share.id).Nodup → k.toNat ≤ kept.length →
    ∃ u, exec .combine (t.setSh kept) = .next u ∧ u.rsp = some (success 0) ∧ u.mem.sec = s.mem.sec ∧ u.slen = s.slen

/-! ### Share Codec -/

/-- 45_codec R160: ENC of an occupied slot leaves in IO its id and then its payload, IOLEN = 1 + len, and nothing else changed;
of any other slot it raises BadAddress. -/
def Obligations.EncodeWritesIdThenPayload : Prop :=
  (∀ (j : Byte) (s : State) (x : Share), s.mem.sh[j.toNat]? = some x →
    exec (.enc j) s =
      .next { s with mem := { s.mem with io := x.id :: x.pay }, cmd := none, rsp := some (success 0) }) ∧
  (∀ (j : Byte) (s t : State) (len : Nat), s.slotLen j.toNat = some len → exec (.enc j) s = .next t →
    t.iolen = 1 + len ∧ t.readByte (.io 0) = s.readByte (.id j.toNat) ∧
      ∀ q < len, t.readByte (.io (1 + q)) = s.readByte (.pay j.toNat q)) ∧
  (∀ (j : Byte) (s : State), s.scnt ≤ j.toNat → Responds (.enc j) s 0x81000000) ∧
  (∀ j : Byte, WordExecutes (0x50000000 + j.toNat * 2 ^ 16) (.enc j)) ∧
  ReservedBitsIllegal 0x50 0xFFFF

/-- 45_codec R161: DEC of a buffer of two bytes or more with a non-zero first byte appends the share (id, the rest) as slot SCNT,
IO unchanged; MalformedShare first, then CapacityExceeded when all 255 slots are occupied. -/
def Obligations.DecodeAppendsTheShare : Prop :=
  (∀ (s : State) (id p : Byte) (ps : List Byte), s.mem.io = id :: p :: ps → id ≠ 0 → s.scnt ≠ 255 →
    exec .dec s =
      .next { s with
        mem := { s.mem with sh := s.mem.sh ++ [{ id := id, pay := p :: ps }] }
        cmd := none
        rsp := some (success 0) }) ∧
  (∀ s : State, s.iolen < 2 ∨ s.readByte (.io 0) = some 0 → Responds .dec s 0x08000000) ∧
  (∀ s : State, 2 ≤ s.iolen → s.readByte (.io 0) ≠ some 0 → s.scnt = 255 → Responds .dec s 0x82000000) ∧
  WordExecutes 0x51000000 .dec ∧ ReservedBitsIllegal 0x51 0xFFFFFF

/-- 45_codec R162: ENC then DEC of a slot with a payload appends a slot equal to it; of a slot with an empty payload ENC succeeds
and DEC fails. The store has room and ids are not 0, as in every state of the invariant with a free slot. -/
def Obligations.CodecRoundTrip : Prop :=
  (∀ (j : Byte) (s : State) (x : Share), s.mem.sh[j.toNat]? = some x → x.pay ≠ [] → x.id ≠ 0 → s.scnt ≠ 255 →
    ∃ t u, exec (.enc j) s = .next t ∧ exec .dec t = .next u ∧ u.rsp = some (success 0) ∧ u.mem.sh = s.mem.sh ++ [x]) ∧
  (∀ (j : Byte) (s : State) (x : Share), s.mem.sh[j.toNat]? = some x → x.pay = [] →
    ∃ t, exec (.enc j) s = .next t ∧ t.rsp = some (success 0) ∧ t.iolen = 1 ∧ Responds .dec t 0x08000000)

/-! ### Buffer access -/

/-- 46_buffer_access R170, R173, R176, R181: CCLR, SCLR, SHCLR and IOCLR empty their own space, so that none of its cells is
readable, answer success and change nothing else. -/
def Obligations.ClearsEmptyTheirSpace : Prop :=
  (∀ s : State,
    exec .cclr s = .next { s with mem := { s.mem with coef := [] }, cmd := none, rsp := some (success 0) } ∧
    exec .sclr s = .next { s with mem := { s.mem with sec := [] }, cmd := none, rsp := some (success 0) } ∧
    exec .shclr s = .next { s with mem := { s.mem with sh := [] }, cmd := none, rsp := some (success 0) } ∧
    exec .ioclr s = .next { s with mem := { s.mem with io := [] }, cmd := none, rsp := some (success 0) }) ∧
  (∀ (i : Instr) (sp : Space) (s t : State), (i, sp) ∈ [(.cclr, .coef), (.sclr, .sec), (.shclr, .sh), (.ioclr, .io)] →
    exec i s = .next t → t.lengthOf sp = 0 ∧ ∀ l : Loc, l.space = sp → t.readByte l = none) ∧
  (WordExecutes 0x22000000 .cclr ∧ WordExecutes 0x31000000 .sclr ∧ WordExecutes 0x41000000 .shclr ∧
    WordExecutes 0x52000000 .ioclr) ∧
  ReservedBitsIllegal 0x22 0xFFFFFF ∧ ReservedBitsIllegal 0x31 0xFFFFFF ∧ ReservedBitsIllegal 0x41 0xFFFFFF ∧
  ReservedBitsIllegal 0x52 0xFFFFFF

/-- 46_buffer_access R171, R174, R182: CPUSH, SPUSH and IOPUSH append their byte at the length register: that cell then reads the
byte, every other cell of the machine reads as before, and nothing else changes; a full buffer is CapacityExceeded. -/
def Obligations.PushesAppendOneByte : Prop :=
  (∀ (b : Byte) (s : State), s.clen ≠ 255 → exec (.cpush b) s =
    .next { s with mem := { s.mem with coef := s.mem.coef ++ [b] }, cmd := none, rsp := some (success 0) }) ∧
  (∀ (b : Byte) (s : State), s.slen ≠ s.lmax → exec (.spush b) s =
    .next { s with mem := { s.mem with sec := s.mem.sec ++ [b] }, cmd := none, rsp := some (success 0) }) ∧
  (∀ (b : Byte) (s : State), s.iolen ≠ s.lmax + 1 → exec (.iopush b) s =
    .next { s with mem := { s.mem with io := s.mem.io ++ [b] }, cmd := none, rsp := some (success 0) }) ∧
  (∀ (b : Byte) (i : Instr) (at_ : Loc) (s t : State),
    (i, at_) ∈ [(.cpush b, .coef s.clen), (.spush b, .sec s.slen), (.iopush b, .io s.iolen)] → exec i s = .next t →
    t.rsp = some (success 0) →
    t.readByte at_ = some b ∧ t.lengthOf at_.space = s.lengthOf at_.space + 1 ∧ ∀ l, l ≠ at_ → t.readByte l = s.readByte l) ∧
  (∀ (b : Byte) (s : State), (s.clen = 255 → Responds (.cpush b) s 0x82000000) ∧
    (s.slen = s.lmax → Responds (.spush b) s 0x82000000) ∧ (s.iolen = s.lmax + 1 → Responds (.iopush b) s 0x82000000)) ∧
  (∀ b : Byte, WordExecutes (0x23000000 + b.toNat * 2 ^ 16) (.cpush b) ∧ WordExecutes (0x32000000 + b.toNat * 2 ^ 16) (.spush b) ∧
    WordExecutes (0x53000000 + b.toNat * 2 ^ 16) (.iopush b)) ∧
  ReservedBitsIllegal 0x23 0xFFFF ∧ ReservedBitsIllegal 0x32 0xFFFF ∧ ReservedBitsIllegal 0x53 0xFFFF

/-- 46_buffer_access R172, R175, R183: CRD, SRD and IORD answer the byte in the cell and change nothing; at or above the length
they raise BadAddress. -/
def Obligations.IndexedReadsAnswerTheCell : Prop :=
  (∀ (i : Byte) (v : Byte) (s : State), s.readByte (.coef i.toNat) = some v → Responds (.crd i) s (success v.toNat)) ∧
  (∀ (i : Half) (v : Byte) (s : State), s.readByte (.sec i.toNat) = some v → Responds (.srd i) s (success v.toNat)) ∧
  (∀ (i : Half) (v : Byte) (s : State), s.readByte (.io i.toNat) = some v → Responds (.iord i) s (success v.toNat)) ∧
  (∀ (k : Nat) (s : State), ((∃ v, s.readByte (.coef k) = some v) ↔ k < s.clen) ∧
    ((∃ v, s.readByte (.sec k) = some v) ↔ k < s.slen) ∧ ((∃ v, s.readByte (.io k) = some v) ↔ k < s.iolen)) ∧
  (∀ (i : Byte) (s : State), s.clen ≤ i.toNat → Responds (.crd i) s 0x81000000) ∧
  (∀ (i : Half) (s : State), (s.slen ≤ i.toNat → Responds (.srd i) s 0x81000000) ∧
    (s.iolen ≤ i.toNat → Responds (.iord i) s 0x81000000)) ∧
  (∀ i : Byte, WordExecutes (0x24000000 + i.toNat * 2 ^ 16) (.crd i)) ∧
  (∀ i : Half, WordExecutes (0x33000000 + i.toNat) (.srd i) ∧ WordExecutes (0x54000000 + i.toNat) (.iord i)) ∧
  ReservedBitsIllegal 0x24 0xFFFF ∧ ReservedBitsIllegal 0x33 0xFF0000 ∧ ReservedBitsIllegal 0x54 0xFF0000

/-- 46_buffer_access R177: SHDEL s removes slot s and closes the gap: the slots below keep their shares, every slot from s on holds
what the next one held, SCNT is one less, and no other space, byte or register changes; an unoccupied slot is BadAddress. -/
def Obligations.DeleteClosesTheGap : Prop :=
  (∀ (j : Byte) (s : State), j.toNat < s.scnt →
    ∃ t, exec (.shdel j) s = .next t ∧ t.rsp = some (success 0) ∧ t.cmd = none ∧ t.scnt = s.scnt - 1 ∧
      (∀ k < j.toNat, t.mem.sh[k]? = s.mem.sh[k]?) ∧ (∀ k, j.toNat ≤ k → t.mem.sh[k]? = s.mem.sh[k + 1]?) ∧
      SameSpace .sec s t ∧ SameSpace .coef s t ∧ SameSpace .io s t ∧ t.src = s.src ∧ t.lmax = s.lmax ∧ t.todo = s.todo ∧
      t.received = s.received) ∧
  (∀ (j : Byte) (s : State), s.scnt ≤ j.toNat → Responds (.shdel j) s 0x81000000) ∧
  (∀ j : Byte, WordExecutes (0x42000000 + j.toNat * 2 ^ 16) (.shdel j)) ∧
  ReservedBitsIllegal 0x42 0xFFFF

/-- 46_buffer_access R178, R179, R180: SHID, SHLEN and SHRD answer the id, the payload length and the payload byte of an occupied
slot and change nothing; else they raise BadAddress. The length fits its field when LMAX does (the invariant), and the id is
then not 0. -/
def Obligations.SlotReadsAnswerTheShare : Prop :=
  (∀ (j : Byte) (v : Byte) (s : State), s.readByte (.id j.toNat) = some v → Responds (.shid j) s (success v.toNat)) ∧
  (∀ (j : Byte) (v : Byte) (s : State), s.Inv → s.readByte (.id j.toNat) = some v → v ≠ 0) ∧
  (∀ (j : Byte) (len : Nat) (s : State), s.Inv → s.slotLen j.toNat = some len →
    len ≤ s.lmax ∧ Responds (.shlen j) s (success len)) ∧
  (∀ (j : Byte) (q : Half) (v : Byte) (s : State), s.readByte (.pay j.toNat q.toNat) = some v →
    Responds (.shrd j q) s (success v.toNat)) ∧
  (∀ (j : Byte) (q : Half) (s : State), s.scnt ≤ j.toNat →
    Responds (.shid j) s 0x81000000 ∧ Responds (.shlen j) s 0x81000000 ∧ Responds (.shrd j q) s 0x81000000) ∧
  (∀ (j : Byte) (q : Half) (len : Nat) (s : State), s.slotLen j.toNat = some len → len ≤ q.toNat →
    Responds (.shrd j q) s 0x81000000) ∧
  (∀ (j : Byte) (q : Half), WordExecutes (0x43000000 + j.toNat * 2 ^ 16) (.shid j) ∧
    WordExecutes (0x44000000 + j.toNat * 2 ^ 16) (.shlen j) ∧
    WordExecutes (0x45000000 + j.toNat * 2 ^ 16 + q.toNat) (.shrd j q)) ∧
  ReservedBitsIllegal 0x43 0xFFFF ∧ ReservedBitsIllegal 0x44 0xFFFF

/-- 46_buffer_access R185, 10_state R27: RDR answers SLEN, CLEN, SCNT, IOLEN or LMAX for r = 0 to 4 and changes nothing; for r ≥ 5 it
raises BadAddress. Every value fits the 16-bit field in a state of the invariant. -/
def Obligations.RegisterReadAnswersTheRegister : Prop :=
  (∀ s : State, s.Inv → Responds (.rdr 0) s (success s.slen) ∧ Responds (.rdr 1) s (success s.clen) ∧
    Responds (.rdr 2) s (success s.scnt) ∧ Responds (.rdr 3) s (success s.iolen) ∧ Responds (.rdr 4) s (success s.lmax) ∧
    s.slen < 2 ^ 16 ∧ s.clen < 2 ^ 16 ∧ s.scnt < 2 ^ 16 ∧ s.iolen < 2 ^ 16 ∧ s.lmax < 2 ^ 16) ∧
  (∀ (r : Byte) (s : State), 5 ≤ r.toNat → Responds (.rdr r) s 0x81000000) ∧
  (∀ r : Byte, WordExecutes (0x60000000 + r.toNat * 2 ^ 16) (.rdr r)) ∧
  ReservedBitsIllegal 0x60 0xFFFF

/-! ### Frames and non-interference over all commands -/

/-- FRAME of every command, from the W entries of 10_state R32: a space the table does not mark W keeps its length register and
every byte, read cell by cell; LMAX and the host's side never change; a command that marks no W (the Field commands, PEVAL and
the reads, 20_memory R54) leaves all of memory and the source as they were. -/
def Obligations.CommandsWriteOnlyTheirSpaces : Prop :=
  (∀ (i : Instr) (s t : State) (sp : Space), exec i s = .next t → sp ∉ mayWrite i →
    SameSpace sp s t ∧ t.lengthOf sp = s.lengthOf sp ∧ ∀ l : Loc, l.space = sp → t.readByte l = s.readByte l) ∧
  (∀ (i : Instr) (s t : State), exec i s = .next t → t.lmax = s.lmax ∧ t.todo = s.todo ∧ t.received = s.received ∧ t.cmd = none) ∧
  (∀ (i : Instr) (s t : State), exec i s = .next t → mayWrite i = [] → t.mem = s.mem ∧ t.src = s.src)

/-- NON-INTERFERENCE, from the R entries of 10_state R32: two states that agree on the spaces a command reads, on LMAX and on the
source get the same response and the same source, and each written space is then equal in both or unchanged in both. So no
command's answer depends on a space the table does not mark R for it; in particular none but those that read SEC depends on
the secret. -/
def Obligations.AnswersDependOnlyOnSpacesRead : Prop :=
  ∀ (i : Instr) (s s' t t' : State), (∀ sp ∈ mayRead i, SameSpace sp s s') → s'.src = s.src → s'.lmax = s.lmax →
    exec i s = .next t → exec i s' = .next t' →
    t'.rsp = t.rsp ∧ t'.src = t.src ∧
      ∀ sp ∈ mayWrite i, SameSpace sp t t' ∨ (SameSpace sp s t ∧ SameSpace sp s' t')
end

