-- ==== Sys2Proof/Laws/Encoding.lean ====
section
/-!
SUPPORT. The encoder and the decoder's fields as numbers: one lemma per format and per field (30_encoding R71 to R76), and every
command is well-formed.
-/

namespace Sys2Proof

/-- Concatenation as a number: the left part in the high bits (00_scope R7). -/
theorem append_toNat {m n : Nat} (x : BitVec m) (y : BitVec n) : (x ++ y).toNat = x.toNat * 2 ^ n + y.toNat := by
  rw [BitVec.toNat_append, ← Nat.shiftLeft_add_eq_or_of_lt y.isLt, Nat.shiftLeft_eq]

theorem encodeZ_toNat (op : Byte) : (encodeZ op).toNat = op.toNat * 2 ^ 24 := by
  have h : (encodeZ op).toNat = op.toNat * 2 ^ 24 + (0 : BitVec 24).toNat := append_toNat op (0 : BitVec 24)
  simpa using h

theorem encodeAI_toNat (op a : Byte) (idx : Half) :
    (encodeAI op a idx).toNat = op.toNat * 2 ^ 24 + a.toNat * 2 ^ 16 + idx.toNat := by
  have h : (encodeAI op a idx).toNat = (op ++ a : BitVec 16).toNat * 2 ^ 16 + idx.toNat := append_toNat (op ++ a) idx
  have ha : (op ++ a : BitVec 16).toNat = op.toNat * 2 ^ 8 + a.toNat := append_toNat op a
  rw [h, ha]
  ring

theorem encodeA_toNat (op a : Byte) : (encodeA op a).toNat = op.toNat * 2 ^ 24 + a.toNat * 2 ^ 16 := by
  have h : (encodeA op a).toNat = op.toNat * 2 ^ 24 + a.toNat * 2 ^ 16 + (0 : Half).toNat := encodeAI_toNat op a 0
  simpa using h

theorem encodeI_toNat (op : Byte) (idx : Half) : (encodeI op idx).toNat = op.toNat * 2 ^ 24 + idx.toNat := by
  have h : (encodeI op idx).toNat = op.toNat * 2 ^ 24 + (0 : Byte).toNat * 2 ^ 16 + idx.toNat := encodeAI_toNat op 0 idx
  simpa using h

theorem encodeAB_toNat (op a b : Byte) :
    (encodeAB op a b).toNat = op.toNat * 2 ^ 24 + a.toNat * 2 ^ 16 + b.toNat * 2 ^ 8 := by
  have h : (encodeAB op a b).toNat = (op ++ a ++ b : BitVec 24).toNat * 2 ^ 8 + (0 : BitVec 8).toNat :=
    append_toNat (op ++ a ++ b) (0 : BitVec 8)
  have hb : (op ++ a ++ b : BitVec 24).toNat = (op ++ a : BitVec 16).toNat * 2 ^ 8 + b.toNat := append_toNat (op ++ a) b
  have ha : (op ++ a : BitVec 16).toNat = op.toNat * 2 ^ 8 + a.toNat := append_toNat op a
  have h0 : (0 : BitVec 8).toNat = 0 := rfl
  rw [h, hb, ha, h0]
  ring

theorem encodeNK_toNat (op : Byte) (n k : Count12) :
    (encodeNK op n k).toNat = op.toNat * 2 ^ 24 + n.toNat * 2 ^ 12 + k.toNat := by
  have h : (encodeNK op n k).toNat = (op ++ n : BitVec 20).toNat * 2 ^ 12 + k.toNat := append_toNat (op ++ n) k
  have hn : (op ++ n : BitVec 20).toNat = op.toNat * 2 ^ 12 + n.toNat := append_toNat op n
  rw [h, hn]
  ring

theorem opField_toNat (w : Word) : (opField w).toNat = w.toNat / 2 ^ 24 := by
  have := w.isLt
  simp only [opField, BitVec.extractLsb'_toNat, Nat.shiftRight_eq_div_pow]
  omega

theorem aField_toNat (w : Word) : (aField w).toNat = w.toNat / 2 ^ 16 % 2 ^ 8 := by
  simp only [aField, BitVec.extractLsb'_toNat, Nat.shiftRight_eq_div_pow]

theorem bField_toNat (w : Word) : (bField w).toNat = w.toNat / 2 ^ 8 % 2 ^ 8 := by
  simp only [bField, BitVec.extractLsb'_toNat, Nat.shiftRight_eq_div_pow]

theorem idxField_toNat (w : Word) : (idxField w).toNat = w.toNat % 2 ^ 16 := by
  simp only [idxField, BitVec.extractLsb'_toNat, Nat.shiftRight_zero]

theorem nField_toNat (w : Word) : (nField w).toNat = w.toNat / 2 ^ 12 % 2 ^ 12 := by
  simp only [nField, BitVec.extractLsb'_toNat, Nat.shiftRight_eq_div_pow]

theorem kField_toNat (w : Word) : (kField w).toNat = w.toNat % 2 ^ 12 := by
  simp only [kField, BitVec.extractLsb'_toNat, Nat.shiftRight_zero]

/-- Bits below `n` are all 0 exactly when the number is a multiple of 2^n (30_encoding R86, formats Z, A, AB). -/
theorem and_low_eq_zero (w : Word) (n : Nat) (hn : n ≤ 32) :
    w &&& BitVec.ofNat 32 (2 ^ n - 1) = 0 ↔ w.toNat % 2 ^ n = 0 := by
  have hlt : 2 ^ n - 1 < 2 ^ 32 :=
    lt_of_lt_of_le (Nat.sub_lt (by positivity) one_pos) (Nat.pow_le_pow_right (by norm_num) hn)
  have h : (w &&& BitVec.ofNat 32 (2 ^ n - 1)).toNat = w.toNat % 2 ^ n := by
    rw [BitVec.toNat_and, BitVec.toNat_ofNat, Nat.mod_eq_of_lt hlt, Nat.and_two_pow_sub_one_eq_mod]
  rw [← h]
  exact ⟨fun e => by simp [e], fun e => BitVec.eq_of_toNat_eq (by simpa using e)⟩

theorem and_maskZ (w : Word) : w &&& maskZ = 0 ↔ w.toNat % 2 ^ 24 = 0 := and_low_eq_zero w 24 (by norm_num)
theorem and_maskA (w : Word) : w &&& maskA = 0 ↔ w.toNat % 2 ^ 16 = 0 := and_low_eq_zero w 16 (by norm_num)
theorem and_maskAB (w : Word) : w &&& maskAB = 0 ↔ w.toNat % 2 ^ 8 = 0 := and_low_eq_zero w 8 (by norm_num)

/-- Bits 23:16 are all 0 (30_encoding R86, format I). -/
theorem and_maskI (w : Word) : w &&& maskI = 0 ↔ w.toNat / 2 ^ 16 % 2 ^ 8 = 0 := by
  have h : (w &&& maskI).toNat = (w.toNat / 2 ^ 16 % 2 ^ 8) <<< 16 := by
    have hm : maskI.toNat = (2 ^ 8 - 1) <<< 16 := by decide
    rw [BitVec.toNat_and, hm, ← Nat.shiftRight_eq_div_pow, ← Nat.and_two_pow_sub_one_eq_mod]
    apply Nat.eq_of_testBit_eq
    intro i
    simp only [Nat.testBit_and, Nat.testBit_shiftLeft, Nat.testBit_shiftRight]
    by_cases hi : 16 ≤ i
    · simp [hi]
    · simp [hi]
  rw [← BitVec.toNat_inj, h, Nat.shiftLeft_eq]
  simp

/-- Every command's own line is a well-formed line of assembly (30_encoding R89). -/
theorem wellFormed_all (i : Instr) : i.wellFormed = true := by
  cases i <;>
    simp [Instr.wellFormed, Instr.toLine, Line.wellFormed, operandWidths, List.lookup, operandsFit] <;> omega

end Sys2Proof
end

