-- ==== Sys2Proof/Laws/State.lean ====
section
/-!
SUPPORT. The small lemmas of the state: what each named update leaves in each field, and that every write of a space keeps the form
of memory (10_state R33).
-/

namespace Sys2Proof.Machine

section updates
variable (s : State) (v : List Byte) (x : List Share) (r : Source) (e : Byte) (d : Half) (w : Word)

@[simp] theorem setSec_sec : (s.setSec v).mem.sec = v := rfl
@[simp] theorem setSec_coef : (s.setSec v).mem.coef = s.mem.coef := rfl
@[simp] theorem setSec_sh : (s.setSec v).mem.sh = s.mem.sh := rfl
@[simp] theorem setSec_io : (s.setSec v).mem.io = s.mem.io := rfl
@[simp] theorem setSec_src : (s.setSec v).src = s.src := rfl
@[simp] theorem setSec_lmax : (s.setSec v).lmax = s.lmax := rfl
@[simp] theorem setSec_cmd : (s.setSec v).cmd = s.cmd := rfl
@[simp] theorem setSec_rsp : (s.setSec v).rsp = s.rsp := rfl
@[simp] theorem setSec_todo : (s.setSec v).todo = s.todo := rfl
@[simp] theorem setSec_received : (s.setSec v).received = s.received := rfl

@[simp] theorem setCoef_sec : (s.setCoef v).mem.sec = s.mem.sec := rfl
@[simp] theorem setCoef_coef : (s.setCoef v).mem.coef = v := rfl
@[simp] theorem setCoef_sh : (s.setCoef v).mem.sh = s.mem.sh := rfl
@[simp] theorem setCoef_io : (s.setCoef v).mem.io = s.mem.io := rfl
@[simp] theorem setCoef_src : (s.setCoef v).src = s.src := rfl
@[simp] theorem setCoef_lmax : (s.setCoef v).lmax = s.lmax := rfl
@[simp] theorem setCoef_cmd : (s.setCoef v).cmd = s.cmd := rfl
@[simp] theorem setCoef_rsp : (s.setCoef v).rsp = s.rsp := rfl
@[simp] theorem setCoef_todo : (s.setCoef v).todo = s.todo := rfl
@[simp] theorem setCoef_received : (s.setCoef v).received = s.received := rfl

@[simp] theorem setSh_sec : (s.setSh x).mem.sec = s.mem.sec := rfl
@[simp] theorem setSh_coef : (s.setSh x).mem.coef = s.mem.coef := rfl
@[simp] theorem setSh_sh : (s.setSh x).mem.sh = x := rfl
@[simp] theorem setSh_io : (s.setSh x).mem.io = s.mem.io := rfl
@[simp] theorem setSh_src : (s.setSh x).src = s.src := rfl
@[simp] theorem setSh_lmax : (s.setSh x).lmax = s.lmax := rfl
@[simp] theorem setSh_cmd : (s.setSh x).cmd = s.cmd := rfl
@[simp] theorem setSh_rsp : (s.setSh x).rsp = s.rsp := rfl
@[simp] theorem setSh_todo : (s.setSh x).todo = s.todo := rfl
@[simp] theorem setSh_received : (s.setSh x).received = s.received := rfl

@[simp] theorem setIo_sec : (s.setIo v).mem.sec = s.mem.sec := rfl
@[simp] theorem setIo_coef : (s.setIo v).mem.coef = s.mem.coef := rfl
@[simp] theorem setIo_sh : (s.setIo v).mem.sh = s.mem.sh := rfl
@[simp] theorem setIo_io : (s.setIo v).mem.io = v := rfl
@[simp] theorem setIo_src : (s.setIo v).src = s.src := rfl
@[simp] theorem setIo_lmax : (s.setIo v).lmax = s.lmax := rfl
@[simp] theorem setIo_cmd : (s.setIo v).cmd = s.cmd := rfl
@[simp] theorem setIo_rsp : (s.setIo v).rsp = s.rsp := rfl
@[simp] theorem setIo_todo : (s.setIo v).todo = s.todo := rfl
@[simp] theorem setIo_received : (s.setIo v).received = s.received := rfl

@[simp] theorem setSrc_mem : (s.setSrc r).mem = s.mem := rfl
@[simp] theorem setSrc_src : (s.setSrc r).src = r := rfl
@[simp] theorem setSrc_lmax : (s.setSrc r).lmax = s.lmax := rfl
@[simp] theorem setSrc_cmd : (s.setSrc r).cmd = s.cmd := rfl
@[simp] theorem setSrc_rsp : (s.setSrc r).rsp = s.rsp := rfl
@[simp] theorem setSrc_todo : (s.setSrc r).todo = s.todo := rfl
@[simp] theorem setSrc_received : (s.setSrc r).received = s.received := rfl

@[simp] theorem answer_mem : (s.answer e d).mem = s.mem := rfl
@[simp] theorem answer_src : (s.answer e d).src = s.src := rfl
@[simp] theorem answer_lmax : (s.answer e d).lmax = s.lmax := rfl
@[simp] theorem answer_cmd : (s.answer e d).cmd = none := rfl
@[simp] theorem answer_rsp : (s.answer e d).rsp = some (responseWord e d) := rfl
@[simp] theorem answer_todo : (s.answer e d).todo = s.todo := rfl
@[simp] theorem answer_received : (s.answer e d).received = s.received := rfl

@[simp] theorem takeResponse_mem : (s.takeResponse w).mem = s.mem := rfl
@[simp] theorem takeResponse_src : (s.takeResponse w).src = s.src := rfl
@[simp] theorem takeResponse_lmax : (s.takeResponse w).lmax = s.lmax := rfl
@[simp] theorem takeResponse_cmd : (s.takeResponse w).cmd = s.cmd := rfl
@[simp] theorem takeResponse_rsp : (s.takeResponse w).rsp = none := rfl
@[simp] theorem takeResponse_todo : (s.takeResponse w).todo = s.todo := rfl
@[simp] theorem takeResponse_received : (s.takeResponse w).received = s.received ++ [w] := rfl

end updates

/-! ### Every write of a space keeps the form of memory -/

theorem setSec_wf {s : State} {v : List Byte} (h : s.mem.wf s.lmax) (hv : v.length ≤ s.lmax) :
    (s.setSec v).mem.wf s.lmax := ⟨hv, h.2⟩

theorem setCoef_wf {s : State} {v : List Byte} (h : s.mem.wf s.lmax) (hv : v.length ≤ Config.cmax) :
    (s.setCoef v).mem.wf s.lmax := ⟨h.1, hv, h.2.2⟩

theorem setSh_wf {s : State} {x : List Share} (h : s.mem.wf s.lmax) (hx : x.length ≤ Config.nslot)
    (hs : ∀ y ∈ x, y.wf s.lmax) : (s.setSh x).mem.wf s.lmax := ⟨h.1, h.2.1, hx, h.2.2.2.1, hs⟩

theorem setIo_wf {s : State} {v : List Byte} (h : s.mem.wf s.lmax) (hv : v.length ≤ s.lmax + 1) :
    (s.setIo v).mem.wf s.lmax := ⟨h.1, h.2.1, h.2.2.1, hv, h.2.2.2.2⟩

/-- Empty memory, as reset leaves it, has the form of memory. -/
theorem emptyMemory_wf (lmax : Nat) : Memory.wf { sec := [], coef := [], sh := [], io := [] } lmax := by
  simp [Memory.wf]

theorem resetMemory_wf : State.reset.mem.wf State.reset.lmax := emptyMemory_wf _

/-- LMAX of the machine after reset is in the range of 00_scope R5. -/
theorem configLmax_range : 1 ≤ Config.lmax ∧ Config.lmax ≤ 65534 := by
  have := Config.lmaxIndex.isLt
  simp only [Config.lmax]
  omega

end Sys2Proof.Machine
end

