-- ==== Sys2Proof/Laws/Ops.lean ====
section
/-!
SUPPORT. For each shared operation, one lemma that says once everything it can do.
-/

namespace Sys2Proof.Machine

variable {s t : State}

/-! ### How a command ends -/

theorem respond_next {d : Half} (h : respond d s = .next t) : t = s.answer 0x00 d := by
  cases h
  rfl

theorem raise_next {e : Err} (h : raise e s = .next t) : t = s.answer e.code 0 := by
  cases h
  rfl

/-- A read of a byte answers it with nothing changed, or is BadAddress. -/
theorem respondByte_next {b : Option Byte} (h : respondByte b s = .next t) :
    (∃ v, b = some v ∧ t = s.answer 0x00 (zext16 v)) ∨ (b = none ∧ t = s.answer Err.badAddress.code 0) := by
  cases b with
  | none => exact .inr ⟨rfl, raise_next h⟩
  | some v => exact .inl ⟨v, rfl, respond_next h⟩

/-- A read of a length answers it with nothing changed, or is BadAddress. -/
theorem respondLength_next {n : Option Nat} (h : respondLength n s = .next t) :
    (∃ v, n = some v ∧ t = s.answer 0x00 (lengthData v)) ∨ (n = none ∧ t = s.answer Err.badAddress.code 0) := by
  cases n with
  | none => exact .inr ⟨rfl, raise_next h⟩
  | some v => exact .inl ⟨v, rfl, respond_next h⟩

/-- A field result is answered with nothing changed, or is DomainError. -/
theorem respondField_next {b : Option Byte} (h : respondField b s = .next t) :
    (∃ v, b = some v ∧ t = s.answer 0x00 (zext16 v)) ∨ (b = none ∧ t = s.answer Err.domainError.code 0) := by
  cases b with
  | none => exact .inr ⟨rfl, raise_next h⟩
  | some v => exact .inl ⟨v, rfl, respond_next h⟩

/-- The response word as a number (30_encoding R77). -/
theorem responseWord_toNat (e : Byte) (d : Half) : (responseWord e d).toNat = e.toNat * 2 ^ 24 + d.toNat := by
  have he : (e ++ (0 : BitVec 8) : BitVec 16).toNat = e.toNat * 2 ^ 8 := by
    have h : (e ++ (0 : BitVec 8) : BitVec 16).toNat = e.toNat <<< 8 ||| (0 : BitVec 8).toNat := BitVec.toNat_append e 0
    simpa [Nat.shiftLeft_eq] using h
  have h : (responseWord e d).toNat = (e ++ (0 : BitVec 8) : BitVec 16).toNat <<< 16 ||| d.toNat :=
    BitVec.toNat_append (e ++ (0 : BitVec 8)) d
  rw [h, he, Nat.shiftLeft_eq, ← Nat.shiftLeft_eq (e.toNat * 2 ^ 8), ← Nat.shiftLeft_add_eq_or_of_lt d.isLt, Nat.shiftLeft_eq]
  ring

/-- The response word of a success is its data (30_encoding R77). -/
theorem responseWord_success (d : Half) : responseWord 0x00 d = BitVec.ofNat 32 d.toNat := by
  apply BitVec.eq_of_toNat_eq
  have := d.isLt
  rw [responseWord_toNat, BitVec.toNat_ofNat, Nat.mod_eq_of_lt (by omega)]
  simp

/-! ### Randomness -/

@[simp] theorem Source.after_zero (src : Source) : src.after 0 = src := by simp [Source.after]

theorem Source.after_succ (src : Source) (n : Nat) : src.after (n + 1) = src.draw.2.after n := by
  obtain ⟨f, k⟩ := src
  cases f with
  | nil => simp [Source.after, Source.draw]; omega
  | cons b bs => simp [Source.after, Source.draw]

theorem Source.answer_succ (src : Source) (n : Nat) : src.answer (n + 1) = src.draw.2.answer n := by
  obtain ⟨f, k⟩ := src
  cases f with
  | nil => simp [Source.answer, Source.draw]; congr 1; omega
  | cons b bs => simp [Source.answer, Source.draw]

theorem Source.answer_zero (src : Source) : src.answer 0 = src.draw.1 := by
  obtain ⟨f, k⟩ := src
  cases f <;> simp [Source.answer, Source.draw]

/-- `n` requests get the answers 0 to n-1 and leave the source n further (41_randomness R122). -/
theorem Source.drawMany_eq (n : Nat) (src : Source) :
    Source.drawMany n src = ((List.range n).map src.answer, src.after n) := by
  induction n generalizing src with
  | zero => simp [Source.drawMany]
  | succ n ih =>
    simp only [Source.drawMany, ih, Source.after_succ, List.range_succ_eq_map, List.map_cons, List.map_map,
      Source.answer_zero]
    congr 2
    exact List.map_congr_left fun t _ => (Source.answer_succ src t).symm

theorem Source.answer_after (src : Source) (n t : Nat) : (src.after n).answer t = src.answer (n + t) := by
  induction n generalizing src with
  | zero => simp
  | succ n ih => rw [Source.after_succ, ih, Nat.add_right_comm, Source.answer_succ]

theorem Source.after_after (src : Source) (n m : Nat) : (src.after n).after m = src.after (n + m) := by
  induction n generalizing src with
  | zero => simp
  | succ n ih => rw [Source.after_succ, ih, Nat.add_right_comm, Source.after_succ]

/-- What a reset loses of the source: between none and all the answers of the abandoned command (70_reset R221). -/
theorem Source.lose_cases (src : Source) (k : Nat) :
    ∃ j ≤ k, (src.lose k).fixed = src.fixed.drop j ∧ src.free ≤ (src.lose k).free := by
  unfold Source.lose
  split
  · exact ⟨0, by simp⟩
  · refine ⟨Config.lostDraws src.free % (k + 1), ?_, rfl, ?_⟩
    · exact Nat.lt_succ_iff.mp (Nat.mod_lt _ (Nat.succ_pos k))
    · simp only [Source.after]
      omega

/-! ### Polynomials -/

/-- `build` gives the constant term and the next k-1 answers (42_polynomial R130). -/
theorem buildPoly_eq (b : Byte) (k : Nat) (src : Source) :
    buildPoly b k src = (b :: (List.range (k - 1)).map src.answer, src.after (k - 1)) := by
  simp [buildPoly, Source.drawMany_eq]

/-- One polynomial per secret byte, and the source L·(K-1) requests further (43_splitter R141). -/
theorem splitPolys_length (k : Nat) (bs : List Byte) (src : Source) :
    (splitPolys k bs src).1.length = bs.length ∧ (splitPolys k bs src).2 = src.after (bs.length * (k - 1)) := by
  induction bs generalizing src with
  | nil => simp [splitPolys]
  | cons b bs ih =>
    simp [splitPolys, buildPoly_eq, ih, Source.after_after]
    congr 1
    ring

theorem evalPoly_cons (c d : Byte) (cs : List Byte) (x : Byte) :
    evalPoly (c :: d :: cs) x = fieldAdd (fieldMul (evalPoly (d :: cs) x) x) c := rfl

/-! ### Codec -/

/-- A buffer decodes to a share exactly when it is the encoding of one with a non-zero id and a payload (45_codec R161). -/
theorem decodeShare_eq_some {bytes : List Byte} {x : Share} :
    decodeShare bytes = some x ↔ bytes = encodeShare x ∧ x.id ≠ 0 ∧ x.pay ≠ [] := by
  obtain ⟨i, p⟩ := x
  constructor
  · intro h
    match bytes with
    | [] => simp [decodeShare] at h
    | [_] => simp [decodeShare] at h
    | id :: q :: qs =>
      simp only [decodeShare] at h
      split at h
      · cases h
      · cases h
        simp_all [encodeShare]
  · rintro ⟨rfl, hi, hp⟩
    cases p with
    | nil => exact absurd rfl hp
    | cons q qs => simpa [encodeShare, decodeShare] using hi

end Sys2Proof.Machine
end

