-- ==== Sys2Proof/Laws/Exec.lean ====
section
/-!
SUPPORT. What a command can do, said once: how each command that writes ends, how every command ends, and what a step is.
-/

namespace Sys2Proof.Machine

variable {s t : State}

/-! ### The commands that write, inverted -/

theorem execPbuild_next {b k : Byte} (h : execPbuild b k s = .next t) :
    (k.toNat = 0 ∧ t = s.answer Err.invalidThreshold.code 0) ∨
    (k.toNat ≠ 0 ∧ t = ((s.setCoef (b :: (List.range (k.toNat - 1)).map s.src.answer)).setSrc
      (s.src.after (k.toNat - 1))).answer 0x00 0) := by
  unfold execPbuild at h
  split at h
  · exact .inl ⟨‹_›, raise_next h⟩
  · exact .inr ⟨‹_›, by simpa only [buildPoly_eq] using respond_next h⟩

theorem execCpush_next {b : Byte} (h : execCpush b s = .next t) :
    (s.clen = 255 ∧ t = s.answer Err.capacityExceeded.code 0) ∨
    (s.clen ≠ 255 ∧ t = (s.setCoef (s.mem.coef ++ [b])).answer 0x00 0) := by
  unfold execCpush at h
  split at h
  · exact .inl ⟨‹_›, raise_next h⟩
  · exact .inr ⟨‹_›, respond_next h⟩

theorem execSpush_next {b : Byte} (h : execSpush b s = .next t) :
    (s.slen = s.lmax ∧ t = s.answer Err.capacityExceeded.code 0) ∨
    (s.slen ≠ s.lmax ∧ t = (s.setSec (s.mem.sec ++ [b])).answer 0x00 0) := by
  unfold execSpush at h
  split at h
  · exact .inl ⟨‹_›, raise_next h⟩
  · exact .inr ⟨‹_›, respond_next h⟩

theorem execIopush_next {b : Byte} (h : execIopush b s = .next t) :
    (s.iolen = s.lmax + 1 ∧ t = s.answer Err.capacityExceeded.code 0) ∨
    (s.iolen ≠ s.lmax + 1 ∧ t = (s.setIo (s.mem.io ++ [b])).answer 0x00 0) := by
  unfold execIopush at h
  split at h
  · exact .inl ⟨‹_›, raise_next h⟩
  · exact .inr ⟨‹_›, respond_next h⟩

theorem execShdel_next {j : Byte} (h : execShdel j s = .next t) :
    (s.scnt ≤ j.toNat ∧ t = s.answer Err.badAddress.code 0) ∨
    (j.toNat < s.scnt ∧ t = (s.setSh (s.mem.sh.eraseIdx j.toNat)).answer 0x00 0) := by
  unfold execShdel at h
  split at h
  · exact .inl ⟨‹_›, raise_next h⟩
  · exact .inr ⟨not_le.mp ‹_›, respond_next h⟩

theorem execEnc_next {j : Byte} (h : execEnc j s = .next t) :
    (s.mem.sh[j.toNat]? = none ∧ t = s.answer Err.badAddress.code 0) ∨
    (∃ x, s.mem.sh[j.toNat]? = some x ∧ t = (s.setIo (x.id :: x.pay)).answer 0x00 0) := by
  unfold execEnc at h
  split at h
  · exact .inl ⟨‹_›, raise_next h⟩
  · exact .inr ⟨_, ‹_›, respond_next h⟩

theorem execDec_next (h : execDec s = .next t) :
    (decodeShare s.mem.io = none ∧ t = s.answer Err.malformedShare.code 0) ∨
    (∃ x, decodeShare s.mem.io = some x ∧ s.scnt = 255 ∧ t = s.answer Err.capacityExceeded.code 0) ∨
    (∃ x, decodeShare s.mem.io = some x ∧ s.scnt ≠ 255 ∧ t = (s.setSh (s.mem.sh ++ [x])).answer 0x00 0) := by
  unfold execDec at h
  split at h
  · exact .inl ⟨‹_›, raise_next h⟩
  · split at h
    · exact .inr (.inl ⟨_, ‹_›, ‹_›, raise_next h⟩)
    · exact .inr (.inr ⟨_, ‹_›, ‹_›, respond_next h⟩)

/-- SPLIT fails with one of three errors, or its operands are legal and it writes the shares (43_splitter R140, R141). -/
theorem execSplit_next {n k : Count12} (h : execSplit n k s = .next t) :
    (∃ e : Err, e ∈ [.invalidThreshold, .invalidShareCount, .shareCountOverflow] ∧ t = s.answer e.code 0) ∨
    (2 ≤ k.toNat ∧ k.toNat ≤ n.toNat ∧ n.toNat ≤ 255 ∧
      t = (((s.setSh (splitShares (splitPolys k.toNat s.mem.sec s.src).1 n.toNat)).setSec []).setSrc
        (s.src.after (s.slen * (k.toNat - 1)))).answer 0x00 0) := by
  unfold execSplit at h
  split at h
  · exact .inl ⟨_, by simp, raise_next h⟩
  split at h
  · exact .inl ⟨_, by simp, raise_next h⟩
  split at h
  · exact .inl ⟨_, by simp, raise_next h⟩
  · refine .inr ⟨by omega, by omega, by omega, ?_⟩
    have := respond_next h
    rwa [(splitPolys_length k.toNat s.mem.sec s.src).2] at this

/-- COMBINE fails, or its shares pass the checks and SEC holds the recovered bytes (44_combiner R151). -/
theorem execCombine_next (h : execCombine s = .next t) :
    (∃ e : Err, e ∈ [.insufficientShares, .malformedShares, .duplicateShareId, .domainError] ∧ t = s.answer e.code 0) ∨
    (∃ ws, 2 ≤ s.scnt ∧ (∀ x ∈ s.mem.sh, x.pay.length = firstLen s.mem.sh) ∧ (s.mem.sh.map Share.id).Nodup ∧
      weights (s.mem.sh.map Share.id) = some ws ∧
      t = (s.setSec (combineBytes s.mem.sh ws (firstLen s.mem.sh))).answer 0x00 0) := by
  unfold execCombine at h
  split at h
  · exact .inl ⟨_, by simp, raise_next h⟩
  rename_i h2
  split at h
  · exact .inl ⟨_, by simp, raise_next h⟩
  rename_i hl
  split at h
  · exact .inl ⟨_, by simp, raise_next h⟩
  rename_i hd
  split at h
  · exact .inl ⟨_, by simp, raise_next h⟩
  · exact .inr ⟨_, not_lt.mp h2, by simpa using hl, not_not.mp hd, ‹_›, respond_next h⟩

/-! ### Every command -/

/-- Every command ends with an error and nothing else changed, or with a success that writes at most memory and the source. -/
theorem exec_next {i : Instr} (h : exec i s = .next t) :
    (∃ e : Err, t = s.answer e.code 0) ∨ ∃ m r d, t = ({ s with mem := m, src := r } : State).answer 0x00 d := by
  have read : ∀ {d}, t = s.answer 0x00 d → ∃ m r d, t = ({ s with mem := m, src := r } : State).answer 0x00 d :=
    fun {d} h => ⟨s.mem, s.src, d, h⟩
  cases i with
  | fadd a b => exact .inr (read (respond_next h))
  | fsub a b => exact .inr (read (respond_next h))
  | fmul a b => exact .inr (read (respond_next h))
  | fdiv a b => rcases respondField_next h with ⟨v, -, h⟩ | ⟨-, h⟩ <;> [exact .inr (read h); exact .inl ⟨_, h⟩]
  | finv a => rcases respondField_next h with ⟨v, -, h⟩ | ⟨-, h⟩ <;> [exact .inr (read h); exact .inl ⟨_, h⟩]
  | pbuild b k => rcases execPbuild_next h with ⟨-, h⟩ | ⟨-, h⟩ <;> [exact .inl ⟨_, h⟩; exact .inr ⟨_, _, _, h⟩]
  | peval x =>
    simp only [exec, execPeval] at h
    split at h
    · exact .inl ⟨_, raise_next h⟩
    · exact .inr (read (respond_next h))
  | cclr => exact .inr ⟨_, _, _, respond_next h⟩
  | cpush b => rcases execCpush_next h with ⟨-, h⟩ | ⟨-, h⟩ <;> [exact .inl ⟨_, h⟩; exact .inr ⟨_, _, _, h⟩]
  | crd j => rcases respondByte_next h with ⟨v, -, h⟩ | ⟨-, h⟩ <;> [exact .inr (read h); exact .inl ⟨_, h⟩]
  | split n k => rcases execSplit_next h with ⟨e, -, h⟩ | ⟨-, -, -, h⟩ <;> [exact .inl ⟨_, h⟩; exact .inr ⟨_, _, _, h⟩]
  | sclr => exact .inr ⟨_, _, _, respond_next h⟩
  | spush b => rcases execSpush_next h with ⟨-, h⟩ | ⟨-, h⟩ <;> [exact .inl ⟨_, h⟩; exact .inr ⟨_, _, _, h⟩]
  | srd idx => rcases respondByte_next h with ⟨v, -, h⟩ | ⟨-, h⟩ <;> [exact .inr (read h); exact .inl ⟨_, h⟩]
  | combine => rcases execCombine_next h with ⟨e, -, h⟩ | ⟨ws, -, -, -, -, h⟩ <;> [exact .inl ⟨_, h⟩; exact .inr ⟨_, _, _, h⟩]
  | shclr => exact .inr ⟨_, _, _, respond_next h⟩
  | shdel j => rcases execShdel_next h with ⟨-, h⟩ | ⟨-, h⟩ <;> [exact .inl ⟨_, h⟩; exact .inr ⟨_, _, _, h⟩]
  | shid j => rcases respondByte_next h with ⟨v, -, h⟩ | ⟨-, h⟩ <;> [exact .inr (read h); exact .inl ⟨_, h⟩]
  | shlen j => rcases respondLength_next h with ⟨v, -, h⟩ | ⟨-, h⟩ <;> [exact .inr (read h); exact .inl ⟨_, h⟩]
  | shrd j idx => rcases respondByte_next h with ⟨v, -, h⟩ | ⟨-, h⟩ <;> [exact .inr (read h); exact .inl ⟨_, h⟩]
  | enc j => rcases execEnc_next h with ⟨-, h⟩ | ⟨x, -, h⟩ <;> [exact .inl ⟨_, h⟩; exact .inr ⟨_, _, _, h⟩]
  | dec =>
    rcases execDec_next h with ⟨-, h⟩ | ⟨x, -, -, h⟩ | ⟨x, -, -, h⟩
    · exact .inl ⟨_, h⟩
    · exact .inl ⟨_, h⟩
    · exact .inr ⟨_, _, _, h⟩
  | ioclr => exact .inr ⟨_, _, _, respond_next h⟩
  | iopush b => rcases execIopush_next h with ⟨-, h⟩ | ⟨-, h⟩ <;> [exact .inl ⟨_, h⟩; exact .inr ⟨_, _, _, h⟩]
  | iord idx => rcases respondByte_next h with ⟨v, -, h⟩ | ⟨-, h⟩ <;> [exact .inr (read h); exact .inl ⟨_, h⟩]
  | rdr r => rcases respondLength_next h with ⟨v, -, h⟩ | ⟨-, h⟩ <;> [exact .inr (read h); exact .inl ⟨_, h⟩]

/-- The engine on a word: the decoded command, or IllegalCommand. -/
theorem runWord_cases (w : Word) (s : State) :
    (∃ i, decode w = .instr i ∧ runWord w s = exec i s) ∨
    ((∀ i, decode w ≠ .instr i) ∧ runWord w s = .next (s.answer Err.illegalCommand.code 0)) := by
  unfold runWord
  split <;> rename_i h
  · exact .inl ⟨_, h, rfl⟩
  · exact .inr ⟨by simp [h], rfl⟩
  · exact .inr ⟨by simp [h], rfl⟩

/-- Whose turn it is decides the step. -/
theorem step_reset {rest : List HostAct} (h : s.todo = .reset :: rest) : step s = .next (resetEvent rest s) := by
  simp [step, nextTurn, h]

theorem step_engine {w : Word} (h : s.cmd = some w) (hr : ∀ rest, s.todo ≠ .reset :: rest) : step s = runWord w s := by
  have : nextTurn s = .engine w := by
    unfold nextTurn
    split
    · exact absurd ‹_› (hr _)
    · simp [h]
  simp [step, this]

theorem step_host (h : s.cmd = none) (hr : ∀ rest, s.todo ≠ .reset :: rest) : step s = .next (hostTurn s) := by
  have : nextTurn s = .host := by
    unfold nextTurn
    split
    · exact absurd ‹_› (hr _)
    · simp [h]
  simp [step, this]

/-- The host's turn, by what there is to do. -/
theorem hostTurn_cases (s : State) :
    (∃ r rest, s.rsp = some r ∧ s.todo = .await :: rest ∧ hostTurn s = { s.takeResponse r with todo := rest }) ∨
    (∃ r w rest, s.rsp = some r ∧ s.todo = .send w :: rest ∧ hostTurn s = s.takeResponse r) ∨
    (∃ w rest, s.rsp = none ∧ s.todo = .send w :: rest ∧ hostTurn s = { s with cmd := some w, todo := rest }) ∨
    (∃ rest, s.rsp = none ∧ s.todo = .await :: rest ∧ hostTurn s = { s with todo := rest }) ∨ hostTurn s = s := by
  unfold hostTurn
  split <;> simp_all

end Sys2Proof.Machine
end

