-- ==== Sys2Proof/Laws/PerInstr.lean ====
section
/-!
SUPPORT. The per-instruction family `TableRow`: every command is well-formed, and its word carries the opcode of the row of
spec/opcode_table.json that has its mnemonic (30_encoding R70, R84).
-/

namespace Sys2Proof.Laws.TableRow

/-- The command is well-formed and its word's opcode is that of the table's row with its mnemonic. -/
def Statement (i : Instr) : Prop :=
  i.wellFormed = true ∧ ∃ r ∈ opcodeRows, r.mnemonic = i.toLine.mnemonic ∧ opField (encode i) = opField r.pattern

theorem opField_of_toNat {w : Word} {op : Byte} {rest : Nat} (h : w.toNat = op.toNat * 2 ^ 24 + rest) (hr : rest < 2 ^ 24) :
    opField w = op := by
  apply BitVec.eq_of_toNat_eq
  rw [opField_toNat, h]
  omega

theorem opField_encodeZ (op : Byte) : opField (encodeZ op) = op :=
  opField_of_toNat (rest := 0) (by rw [encodeZ_toNat]; omega) (by norm_num)

theorem opField_encodeA (op a : Byte) : opField (encodeA op a) = op :=
  opField_of_toNat (encodeA_toNat op a) (by omega)

theorem opField_encodeAB (op a b : Byte) : opField (encodeAB op a b) = op :=
  opField_of_toNat (by rw [encodeAB_toNat, Nat.add_assoc]) (by omega)

theorem opField_encodeI (op : Byte) (idx : Half) : opField (encodeI op idx) = op :=
  opField_of_toNat (encodeI_toNat op idx) (by omega)

theorem opField_encodeAI (op a : Byte) (idx : Half) : opField (encodeAI op a idx) = op :=
  opField_of_toNat (by rw [encodeAI_toNat, Nat.add_assoc]) (by omega)

theorem opField_encodeNK (op : Byte) (n k : Count12) : opField (encodeNK op n k) = op :=
  opField_of_toNat (by rw [encodeNK_toNat, Nat.add_assoc]) (by omega)

/-- A command satisfies the statement once its row is named and its format's opcode lemma applied. -/
theorem of_row {i : Instr} (r : OpcodeRow) (op : Byte) (hm : r.mnemonic = i.toLine.mnemonic) (he : opField (encode i) = op)
    (hr : r ∈ opcodeRows) (hp : opField r.pattern = op) : Statement i :=
  ⟨wellFormed_all i, r, hr, hm, he.trans hp.symm⟩

theorem fadd (a : Byte) (b : Byte) : Statement (.fadd a b) :=
  of_row ⟨"FADD", 0x10000000, 0xFF0000FF⟩ 0x10 rfl (opField_encodeAB _ _ _) (by decide) (by decide)

theorem fsub (a : Byte) (b : Byte) : Statement (.fsub a b) :=
  of_row ⟨"FSUB", 0x11000000, 0xFF0000FF⟩ 0x11 rfl (opField_encodeAB _ _ _) (by decide) (by decide)

theorem fmul (a : Byte) (b : Byte) : Statement (.fmul a b) :=
  of_row ⟨"FMUL", 0x12000000, 0xFF0000FF⟩ 0x12 rfl (opField_encodeAB _ _ _) (by decide) (by decide)

theorem fdiv (a : Byte) (b : Byte) : Statement (.fdiv a b) :=
  of_row ⟨"FDIV", 0x13000000, 0xFF0000FF⟩ 0x13 rfl (opField_encodeAB _ _ _) (by decide) (by decide)

theorem finv (a : Byte) : Statement (.finv a) :=
  of_row ⟨"FINV", 0x14000000, 0xFF00FFFF⟩ 0x14 rfl (opField_encodeA _ _) (by decide) (by decide)

theorem pbuild (a : Byte) (b : Byte) : Statement (.pbuild a b) :=
  of_row ⟨"PBUILD", 0x20000000, 0xFF0000FF⟩ 0x20 rfl (opField_encodeAB _ _ _) (by decide) (by decide)

theorem peval (a : Byte) : Statement (.peval a) :=
  of_row ⟨"PEVAL", 0x21000000, 0xFF00FFFF⟩ 0x21 rfl (opField_encodeA _ _) (by decide) (by decide)

theorem cclr : Statement .cclr :=
  of_row ⟨"CCLR", 0x22000000, 0xFFFFFFFF⟩ 0x22 rfl (opField_encodeZ _) (by decide) (by decide)

theorem cpush (a : Byte) : Statement (.cpush a) :=
  of_row ⟨"CPUSH", 0x23000000, 0xFF00FFFF⟩ 0x23 rfl (opField_encodeA _ _) (by decide) (by decide)

theorem crd (a : Byte) : Statement (.crd a) :=
  of_row ⟨"CRD", 0x24000000, 0xFF00FFFF⟩ 0x24 rfl (opField_encodeA _ _) (by decide) (by decide)

theorem split (a : Count12) (b : Count12) : Statement (.split a b) :=
  of_row ⟨"SPLIT", 0x30000000, 0xFF000000⟩ 0x30 rfl (opField_encodeNK _ _ _) (by decide) (by decide)

theorem sclr : Statement .sclr :=
  of_row ⟨"SCLR", 0x31000000, 0xFFFFFFFF⟩ 0x31 rfl (opField_encodeZ _) (by decide) (by decide)

theorem spush (a : Byte) : Statement (.spush a) :=
  of_row ⟨"SPUSH", 0x32000000, 0xFF00FFFF⟩ 0x32 rfl (opField_encodeA _ _) (by decide) (by decide)

theorem srd (a : Half) : Statement (.srd a) :=
  of_row ⟨"SRD", 0x33000000, 0xFFFF0000⟩ 0x33 rfl (opField_encodeI _ _) (by decide) (by decide)

theorem combine : Statement .combine :=
  of_row ⟨"COMBINE", 0x40000000, 0xFFFFFFFF⟩ 0x40 rfl (opField_encodeZ _) (by decide) (by decide)

theorem shclr : Statement .shclr :=
  of_row ⟨"SHCLR", 0x41000000, 0xFFFFFFFF⟩ 0x41 rfl (opField_encodeZ _) (by decide) (by decide)

theorem shdel (a : Byte) : Statement (.shdel a) :=
  of_row ⟨"SHDEL", 0x42000000, 0xFF00FFFF⟩ 0x42 rfl (opField_encodeA _ _) (by decide) (by decide)

theorem shid (a : Byte) : Statement (.shid a) :=
  of_row ⟨"SHID", 0x43000000, 0xFF00FFFF⟩ 0x43 rfl (opField_encodeA _ _) (by decide) (by decide)

theorem shlen (a : Byte) : Statement (.shlen a) :=
  of_row ⟨"SHLEN", 0x44000000, 0xFF00FFFF⟩ 0x44 rfl (opField_encodeA _ _) (by decide) (by decide)

theorem shrd (a : Byte) (b : Half) : Statement (.shrd a b) :=
  of_row ⟨"SHRD", 0x45000000, 0xFF000000⟩ 0x45 rfl (opField_encodeAI _ _ _) (by decide) (by decide)

theorem enc (a : Byte) : Statement (.enc a) :=
  of_row ⟨"ENC", 0x50000000, 0xFF00FFFF⟩ 0x50 rfl (opField_encodeA _ _) (by decide) (by decide)

theorem dec : Statement .dec :=
  of_row ⟨"DEC", 0x51000000, 0xFFFFFFFF⟩ 0x51 rfl (opField_encodeZ _) (by decide) (by decide)

theorem ioclr : Statement .ioclr :=
  of_row ⟨"IOCLR", 0x52000000, 0xFFFFFFFF⟩ 0x52 rfl (opField_encodeZ _) (by decide) (by decide)

theorem iopush (a : Byte) : Statement (.iopush a) :=
  of_row ⟨"IOPUSH", 0x53000000, 0xFF00FFFF⟩ 0x53 rfl (opField_encodeA _ _) (by decide) (by decide)

theorem iord (a : Half) : Statement (.iord a) :=
  of_row ⟨"IORD", 0x54000000, 0xFFFF0000⟩ 0x54 rfl (opField_encodeI _ _) (by decide) (by decide)

theorem rdr (a : Byte) : Statement (.rdr a) :=
  of_row ⟨"RDR", 0x60000000, 0xFF00FFFF⟩ 0x60 rfl (opField_encodeA _ _) (by decide) (by decide)

end Sys2Proof.Laws.TableRow
end

