-- ==== Sys2Proof/Tests/Slice0.lean ====
section
/-!
SUPPORT. Tests. Expected results come from the spec's test vectors (95_test_vectors, "section" below) or from the rule named.
First the well-formedness smoke test, then decoding, then at most two single steps per command, then, for every statement
with hypotheses, a witness that concrete states and operands meet them.
-/

namespace Sys2Proof.Tests

open Sys2Proof Sys2Proof.Machine

-- One theorem after another, so that a check of this file needs few threads.
set_option Elab.async false

/-! ### Small states -/

/-- The five shares of "Hi" of section 2.6. -/
def hiShares : List Share :=
  [⟨1, [0xE9, 0xDB]⟩, ⟨2, [0x99, 0x68]⟩, ⟨3, [0x38, 0xDA]⟩, ⟨4, [0xE7, 0x88]⟩, ⟨5, [0x46, 0x3A]⟩]

/-- An idle machine of a build with LMAX = 4 that holds this memory and whose source will answer these bytes. -/
def idle (m : Memory) (draws : List Byte) : State :=
  { lmax := 4, mem := m, src := { fixed := draws, free := 0 }, cmd := none, rsp := none, todo := [], received := [] }

/-- Empty buffers. -/
def blank : Memory := { sec := [], coef := [], sh := [], io := [] }

/-- A machine with something in every buffer. -/
def full : State :=
  idle { sec := [0x48, 0x69], coef := [0x48, 0x9D, 0x3C], sh := hiShares, io := [0x02, 0x99, 0x68] } [0x9D, 0x3C, 0xA7, 0x15]

/-- The share store given, everything else empty. -/
def store (sh : List Share) : State := idle { blank with sh := sh } []

/-- 255 occupied slots. -/
def fullStore : State := store (List.replicate 255 ⟨7, [1]⟩)

/-- The same machine with a command word in flight. -/
def flight (w : Word) : State := { full with cmd := some w }

/-- The response of an outcome. -/
def reply : Host.Outcome State Fault Refusal → Option Word
  | .next t => t.rsp
  | .fault _ => none
  | .refused _ => none

/-- The memory of an outcome. -/
def memory : Host.Outcome State Fault Refusal → Option Memory
  | .next t => some t.mem
  | .fault _ => none
  | .refused _ => none

/-- The state of an outcome. -/
def state : Host.Outcome State Fault Refusal → Option State
  | .next t => some t
  | .fault _ => none
  | .refused _ => none

/-! ### Well-formed lines (30_encoding R89) -/

theorem test_wf_accepts : (⟨"FADD", [255, 0]⟩ : Line).wellFormed = true ∧ (⟨"SPLIT", [4095, 4095]⟩ : Line).wellFormed = true ∧
    (⟨"SHRD", [254, 65535]⟩ : Line).wellFormed = true ∧ (⟨"COMBINE", []⟩ : Line).wellFormed = true := by decide

/-- An unknown mnemonic, and a known one in small letters. -/
theorem test_wf_refuses_unknown_mnemonic : (⟨"NOP", []⟩ : Line).wellFormed = false ∧
    (⟨"fadd", [1, 2]⟩ : Line).wellFormed = false ∧ (⟨"NOP", []⟩ : Line).toInstr = none := by decide

theorem test_wf_refuses_too_few_operands : (⟨"FADD", [1]⟩ : Line).wellFormed = false ∧
    (⟨"RDR", []⟩ : Line).wellFormed = false := by decide

theorem test_wf_refuses_too_many_operands : (⟨"FINV", [1, 2]⟩ : Line).wellFormed = false ∧
    (⟨"DEC", [0]⟩ : Line).wellFormed = false := by decide

theorem test_wf_refuses_operand_above_8_bits : (⟨"SPUSH", [256]⟩ : Line).wellFormed = false ∧
    (⟨"SHRD", [256, 0]⟩ : Line).wellFormed = false ∧ (⟨"SPUSH", [256]⟩ : Line).toInstr = none := by decide

theorem test_wf_refuses_operand_above_12_bits : (⟨"SPLIT", [4096, 2]⟩ : Line).wellFormed = false ∧
    (⟨"SPLIT", [5, 4096]⟩ : Line).wellFormed = false := by decide

theorem test_wf_refuses_operand_above_16_bits : (⟨"SRD", [65536]⟩ : Line).wellFormed = false ∧
    (⟨"IORD", [65536]⟩ : Line).wellFormed = false := by decide

/-- Text: decimal and hexadecimal, a comment, a bad number (30_encoding R89). -/
theorem test_assemble_text : assembleText "FADD 0x57, 0x83 ; sum" = some [0x10578300] ∧
    assembleText "SPLIT 5, 3" = some [0x30005003] ∧ assembleText "SPUSH 1z" = none ∧ assembleText "SPUSH 300" = none := by decide

/-- A pseudo-instruction (30_encoding R90; program P1). -/
theorem test_assemble_secret : assembleText "SECRET 0x48, 0x69" = some [0x31000000, 0x32480000, 0x32690000] := by decide

/-! ### Decoding (section 2.2): every command's word, written out from its format and opcode -/

theorem test_decode_field : decode 0x10578300 = .instr (.fadd 0x57 0x83) ∧ decode 0x11578300 = .instr (.fsub 0x57 0x83) ∧
    decode 0x12578300 = .instr (.fmul 0x57 0x83) ∧ decode 0x13C18300 = .instr (.fdiv 0xC1 0x83) ∧
    decode 0x14530000 = .instr (.finv 0x53) := by decide

theorem test_decode_polynomial : decode 0x20480300 = .instr (.pbuild 0x48 3) ∧ decode 0x21020000 = .instr (.peval 2) ∧
    decode 0x22000000 = .instr .cclr ∧ decode 0x239D0000 = .instr (.cpush 0x9D) ∧ decode 0x24010000 = .instr (.crd 1) := by decide

theorem test_decode_splitter : decode 0x30005003 = .instr (.split 5 3) ∧ decode 0x31000000 = .instr .sclr ∧
    decode 0x32480000 = .instr (.spush 0x48) ∧ decode 0x33000001 = .instr (.srd 1) := by decide

theorem test_decode_combiner : decode 0x40000000 = .instr .combine ∧ decode 0x41000000 = .instr .shclr ∧
    decode 0x42020000 = .instr (.shdel 2) ∧ decode 0x43040000 = .instr (.shid 4) ∧ decode 0x44000000 = .instr (.shlen 0) ∧
    decode 0x45010001 = .instr (.shrd 1 1) := by decide

theorem test_decode_codec : decode 0x50010000 = .instr (.enc 1) ∧ decode 0x51000000 = .instr .dec ∧
    decode 0x52000000 = .instr .ioclr ∧ decode 0x53020000 = .instr (.iopush 2) ∧ decode 0x54000000 = .instr (.iord 0) ∧
    decode 0x60020000 = .instr (.rdr 2) := by decide

theorem test_decode_extremes : decode 0x300FF0FF = .instr (.split 255 255) ∧ decode 0x30FFFFFF = .instr (.split 4095 4095) ∧
    decode 0x3300FFFF = .instr (.srd 65535) ∧ decode 0x45FEFFFF = .instr (.shrd 254 65535) ∧
    decode 0x10FFFF00 = .instr (.fadd 0xFF 0xFF) := by decide

theorem test_decode_reserved_opcodes :
    [0x00000000, 0xFFFFFFFF, 0x0F000000, 0x15000000, 0x1F123456, 0x25000000, 0x34000000, 0x46000000, 0x55000000,
      0x61000000].all (fun w => decode w == .reservedOpcode (opField w)) = true := by decide

theorem test_decode_reserved_bits :
    [0x10578301, 0x105783FF, 0x14530001, 0x14538000, 0x21020100, 0x22000001, 0x22800000, 0x40000100, 0x51010000,
      0x33010000, 0x54FF0000, 0x60020001, 0x13010001].all (fun w => decode w == .reservedBits (opField w)) = true := by decide

theorem test_encode : encode (.split 300 400) = 0x3012C190 ∧ encode (.shrd 254 65535) = 0x45FEFFFF ∧
    encode (.pbuild 0x48 3) = 0x20480300 ∧ encode (.iord 3) = 0x54000003 ∧ encode (.rdr 255) = 0x60FF0000 := by decide

/-- The host's numbering: one word of 32 bits. -/
theorem test_decodeTableWord : decodeTableWord 32 0x30005003 = some (.split 5 3) ∧ decodeTableWord 32 0x15000000 = none := by decide

/-- A word placed for the next step runs as the first command after reset (section 2.8: `RDR 5` from reset). -/
theorem test_withFetchWord : reply (step (State.reset.withFetchWord 32 0x60050000)) = some 0x81000000 ∧
    reply (step (State.reset.withFetchWord 32 0x31000000)) = some 0x00000000 ∧
    reply (step (State.reset.withFetchWord 32 0x00000000)) = some 0x80000000 := by decide

/-! ### Single steps of each command -/

/-- Section 2.1. -/
theorem test_fadd : reply (exec (.fadd 0x57 0x83) full) = some 0xD4 ∧ reply (exec (.fadd 0xFF 0xFF) full) = some 0 := by decide
theorem test_fsub : reply (exec (.fsub 0x57 0x83) full) = some 0xD4 ∧ reply (exec (.fsub 0x01 0xFF) full) = some 0xFE := by decide
theorem test_fmul : reply (exec (.fmul 0x57 0x83) full) = some 0xC1 ∧ reply (exec (.fmul 0x80 0x80) full) = some 0x9A ∧
    reply (exec (.fmul 0xFF 0xFF) full) = some 0x13 ∧ reply (exec (.fmul 0x02 0x80) full) = some 0x1B := by decide +kernel
theorem test_fdiv : reply (exec (.fdiv 0xC1 0x83) full) = some 0x57 ∧ reply (exec (.fdiv 0x00 0xFF) full) = some 0 ∧
    reply (exec (.fdiv 0x00 0x00) full) = some 0x04000000 := by decide +kernel
/-- Section 2.3. -/
theorem test_finv : reply (exec (.finv 0x53) full) = some 0xCA ∧ reply (exec (.finv 0xFF) full) = some 0x1C ∧
    reply (exec (.finv 0x00) full) = some 0x04000000 := by decide +kernel

/-- Section 2.5: two draws; the memory and the source. -/
theorem test_pbuild : memory (exec (.pbuild 0x48 3) (idle blank [0x9D, 0x3C, 0xA7])) = some { blank with coef := [0x48, 0x9D, 0x3C] } ∧
    (state (exec (.pbuild 0x48 3) (idle blank [0x9D, 0x3C, 0xA7]))).map State.src = some ⟨[0xA7], 0⟩ := by decide
/-- Section 2.5: `k = 0` draws nothing and leaves COEF; `k = 1` draws nothing. -/
theorem test_pbuild_ends : state (exec (.pbuild 0x48 0) full) = some (full.answered 0x01000000) ∧
    (state (exec (.pbuild 0x77 1) full)).map (fun t => (t.mem.coef, t.src)) = some ([0x77], full.src) := by decide
/-- Section 2.5: x = 0x02, 0xFF and 0 on [48, 9D, 3C]. -/
theorem test_peval : reply (exec (.peval 0x02) full) = some 0x99 ∧ reply (exec (.peval 0xFF) full) = some 0x7A ∧
    reply (exec (.peval 0x00) full) = some 0x48 ∧ reply (exec (.peval 0x01) (idle blank [])) = some 0x01000000 := by decide +kernel
/-- 46_buffer_access R170 to R172. -/
theorem test_cclr : memory (exec .cclr full) = some { full.mem with coef := [] } := by decide
theorem test_cpush : memory (exec (.cpush 0x15) full) = some { full.mem with coef := [0x48, 0x9D, 0x3C, 0x15] } ∧
    reply (exec (.cpush 1) (idle { blank with coef := List.replicate 255 1 } [])) = some 0x82000000 := by decide +kernel
theorem test_crd : reply (exec (.crd 2) full) = some 0x3C ∧ reply (exec (.crd 3) full) = some 0x81000000 := by decide

/-- Section 2.6: "Hi" into five shares with threshold three. -/
theorem test_split : memory (exec (.split 5 3) (idle { blank with sec := [0x48, 0x69] } [0x9D, 0x3C, 0xA7, 0x15])) =
    some { blank with sh := hiShares } := by decide +kernel
/-- Section 2.6: the checks in their order; none draws or writes. -/
theorem test_split_checks : state (exec (.split 0 0) full) = some (full.answered 0x01000000) ∧
    state (exec (.split 300 400) full) = some (full.answered 0x02000000) ∧
    state (exec (.split 256 256) full) = some (full.answered 0x03000000) := by decide
/-- 46_buffer_access R173 to R175; section 2.8. -/
theorem test_sclr : memory (exec .sclr full) = some { full.mem with sec := [] } := by decide
theorem test_spush : memory (exec (.spush 0x21) full) = some { full.mem with sec := [0x48, 0x69, 0x21] } ∧
    reply (exec (.spush 5) (idle { blank with sec := [1, 2, 3, 4] } [])) = some 0x82000000 := by decide
theorem test_srd : reply (exec (.srd 1) full) = some 0x69 ∧ reply (exec (.srd 2) full) = some 0x81000000 := by decide

/-- Section 2.6: ids 2, 4, 5 recover "Hi"; the foreign store with ids 07, 09, C8. -/
theorem test_combine : (memory (exec .combine (store [⟨2, [0x99, 0x68]⟩, ⟨4, [0xE7, 0x88]⟩, ⟨5, [0x46, 0x3A]⟩]))).map Memory.sec =
      some [0x48, 0x69] ∧
    (memory (exec .combine (store [⟨7, [0x10, 0x20]⟩, ⟨9, [0x30, 0x40]⟩, ⟨0xC8, [0x50, 0x60]⟩]))).map Memory.sec =
      some [0xEE, 0x1C] := by decide +kernel
/-- Section 2.6: the checks in their order. -/
theorem test_combine_checks : reply (exec .combine (store [⟨4, [1, 2]⟩])) = some 0x05000000 ∧
    reply (exec .combine (store [⟨4, [1, 2]⟩, ⟨4, [1]⟩])) = some 0x06000000 ∧
    reply (exec .combine (store [⟨4, [1, 2]⟩, ⟨4, [1, 2]⟩])) = some 0x07000000 := by decide
/-- 46_buffer_access R176 to R180; section 2.8. -/
theorem test_shclr : memory (exec .shclr full) = some { full.mem with sh := [] } := by decide
theorem test_shdel : (memory (exec (.shdel 2) full)).map (fun m => m.sh.map Share.id) = some [1, 2, 4, 5] ∧
    state (exec (.shdel 5) full) = some (full.answered 0x81000000) := by decide
theorem test_shid : reply (exec (.shid 4) full) = some 5 ∧ reply (exec (.shid 5) full) = some 0x81000000 := by decide
theorem test_shlen : reply (exec (.shlen 4) full) = some 2 ∧ reply (exec (.shlen 5) full) = some 0x81000000 := by decide
theorem test_shrd : reply (exec (.shrd 1 1) full) = some 0x68 ∧ reply (exec (.shrd 1 2) full) = some 0x81000000 ∧
    reply (exec (.shrd 5 0) full) = some 0x81000000 := by decide

/-- Section 2.7. -/
theorem test_enc : memory (exec (.enc 3) full) = some { full.mem with io := [4, 0xE7, 0x88] } ∧
    memory (exec (.enc 0) (store [⟨1, []⟩])) = some { (store [⟨1, []⟩]).mem with io := [1] } := by decide
theorem test_dec : memory (exec .dec full) = some { full.mem with sh := hiShares ++ [⟨2, [0x99, 0x68]⟩] } ∧
    reply (exec .dec (idle { fullStore.mem with io := [0, 1] } [])) = some 0x08000000 ∧
    reply (exec .dec (idle { fullStore.mem with io := [7, 1] } [])) = some 0x82000000 := by decide +kernel
/-- 46_buffer_access R181 to R183; section 2.8. -/
theorem test_ioclr : memory (exec .ioclr full) = some { full.mem with io := [] } := by decide
theorem test_iopush : memory (exec (.iopush 0x15) full) = some { full.mem with io := [0x02, 0x99, 0x68, 0x15] } ∧
    reply (exec (.iopush 6) (idle { blank with io := [1, 2, 3, 4, 5] } [])) = some 0x82000000 := by decide
theorem test_iord : reply (exec (.iord 2) full) = some 0x68 ∧ reply (exec (.iord 3) full) = some 0x81000000 := by decide
/-- 10_state R27; section 2.8 with LMAX = 4. -/
theorem test_rdr : [0, 1, 2, 3, 4, 5, 255].map (fun r => reply (exec (.rdr r) full)) =
    [some 2, some 3, some 5, some 3, some 4, some 0x81000000, some 0x81000000] := by decide

/-! ### The handshake and reset -/

/-- Reset abandons the word in flight and empties everything (70_reset R220, R221). -/
theorem test_reset : (state (step { flight 0x31000000 with todo := [.reset, .await], rsp := none })).map
    (fun t => (t.mem, t.cmd, t.rsp, t.todo)) = some (blank, none, none, [.await]) := by decide

/-- Program P7 in small: a push, its response taken before the next word is sent (20_memory R59). -/
theorem test_handshake :
    (state (Sys2Proof.core.run 6 { idle blank [] with todo := [.send 0x32480000, .await, .send 0x60000000, .await] })).map
      (fun t => (t.mem.sec, t.received, t.todo)) = some ([0x48], [0x00000000, 0x00000001], []) := by decide

/-! ### Witnesses: the hypotheses of each statement can be met, clause by clause, at the ends of their ranges -/

theorem noReset_of_nil {s : State} (h : s.todo = []) : s.noReset := by
  intro rest
  simp [h]

/-- For `WordIllegal`, `WordExecutes` and `IllegalCommandExactly`: any word can be in flight with no reset pending. -/
theorem witness_word_in_flight (w : Word) : (flight w).cmd = some w ∧ (flight w).noReset :=
  ⟨rfl, noReset_of_nil rfl⟩

theorem witness_EncodeOfDecodeIsTheWord : decode 0x300FF0FF = .instr (.split 255 255) := by decide

/-- Both ends of every range of reserved opcodes. -/
theorem witness_ReservedOpcodesAreIllegal :
    ([0x00FFFFFF, 0x0F000000, 0x15000000, 0x1F123456, 0x25000000, 0x2F000000, 0x34000000] : List Word).map
      (fun w => w.toNat / 16777216) = [0x00, 0x0F, 0x15, 0x1F, 0x25, 0x2F, 0x34] ∧
    ([0x3F000000, 0x46000000, 0x4F000000, 0x55000000, 0x5F000000, 0x61000000, 0xFFFFFFFF] : List Word).map
      (fun w => w.toNat / 16777216) = [0x3F, 0x46, 0x4F, 0x55, 0x5F, 0x61, 0xFF] := by decide

/-- One word of each format with the lowest or the highest reserved bit set (section 2.2). -/
theorem witness_ReservedBitsAreIllegal :
    ((0x22800000 : Word).toNat / 16777216 = 0x22 ∧ (0x22800000 : Word) &&& 0x00FFFFFF ≠ 0) ∧
    ((0x14530001 : Word).toNat / 16777216 = 0x14 ∧ (0x14530001 : Word) &&& 0x0000FFFF ≠ 0) ∧
    ((0x10578301 : Word).toNat / 16777216 = 0x10 ∧ (0x10578301 : Word) &&& 0x000000FF ≠ 0) ∧
    ((0x33010000 : Word).toNat / 16777216 = 0x33 ∧ (0x33010000 : Word) &&& 0x00FF0000 ≠ 0) ∧
    (0x45FEFFFF : Word).toNat / 16777216 = 0x45 ∧ (0x30FFFFFF : Word).toNat / 16777216 = 0x30 := by decide

theorem witness_AssemblerInvertsPrinting : (⟨"SPLIT", [5, 3]⟩ : Line).toInstr = some (.split 5 3) := by decide

theorem witness_PseudoInstructionsExpand :
    runExpansion [.ioclr, .finv 0] full = .next ((full.setIo []).answered 0x04000000) ∧
    ((full.setIo []).answered 0x04000000).succeeded = false := ⟨rfl, by decide⟩

/-- As many bytes as the build holds. -/
theorem witness_SecretLoadsTheSecretBuffer : ([1, 2, 3, 4] : List Byte).length ≤ full.lmax := by decide

theorem witness_StepRunsTheDecodedCommand : (flight 0x30005003).cmd = some 0x30005003 ∧ (flight 0x30005003).noReset ∧
    decode 0x30005003 = .instr (.split 5 3) := ⟨rfl, noReset_of_nil rfl, by decide⟩

theorem witness_OneCommandAtATime :
    (let s := { full with rsp := some 0x48, todo := [.send 0x31000000] }
     s.cmd = none ∧ s.rsp = some 0x48 ∧ s.todo = [.send 0x31000000]) ∧
    (let s := { full with todo := [.send 0x31000000] }
     s.ready ∧ s.todo = [.send 0x31000000]) ∧
    (let s := { flight 0x31000000 with todo := [.send 0x22000000] }
     s.cmd = some 0x31000000 ∧ s.noReset ∧ ∃ t, step s = .next t) :=
  ⟨⟨rfl, rfl, rfl⟩, ⟨⟨rfl, rfl⟩, rfl⟩, ⟨rfl, by intro rest h; simp at h, _, rfl⟩⟩

/-- Two words, and a reset after them. -/
theorem witness_HandshakeRefinesSequentialRun :
    let s := { full with todo := [.send 0x31000000, .await, .send 0x60000000, .await, .reset] }
    s.ready ∧ s.todo = [0x31000000, 0x60000000].flatMap (fun w => [.send w, .await]) ++ [.reset] :=
  ⟨⟨rfl, rfl⟩, rfl⟩

theorem witness_ResetEmptiesEverything : ({ flight 0x31000000 with todo := [.reset] } : State).todo = [.reset] := rfl

/-- The command abandoned is one that would have drawn four bytes. -/
theorem witness_ResetAbandonsTheCommandInFlight :
    let s := { full with todo := [.send 0x30005003, .reset, .await] }
    s.ready ∧ s.todo = [.send 0x30005003, .reset, .await] ∧ drawsInFlight { s with cmd := some 0x30005003 } = 4 :=
  ⟨⟨rfl, rfl⟩, rfl, by decide⟩

theorem full_inv : full.Inv := by unfold State.Inv; decide

/-- A full build, every length at its largest. -/
theorem witness_EveryStepKeepsTheInvariant :
    (let s := { flight 0x51000000 with mem := { full.mem with sec := [1, 2, 3, 4], io := [1, 2, 3, 4, 5] } }
     s.Inv ∧ ∃ t, step s = .next t) := ⟨by unfold State.Inv; decide, _, rfl⟩

/-- Commands that fail, and a word that is no command; also for the fourth clause of `DrawsAreExactlyCounted`. -/
theorem witness_FailedCommandChangesNothing :
    (∃ t, runWord 0x13570000 full = .next t ∧ t.rsp = some 0x04000000 ∧ errField 0x04000000 ≠ 0) ∧
    (∃ t, runWord 0x00000000 full = .next t ∧ t.rsp = some 0x80000000 ∧ errField 0x80000000 ≠ 0) ∧
    (∃ t, exec (.fdiv 0x57 0) full = .next t ∧ t.rsp = some 0x04000000) :=
  ⟨⟨_, rfl, rfl, by decide⟩, ⟨_, rfl, rfl, by decide⟩, ⟨_, rfl, rfl⟩⟩

theorem witness_NoErrorIsSticky : ∃ t, runWord 0x51000000 (idle { fullStore.mem with io := [0, 1] } []) = .next t ∧
    t.rsp = some 0x08000000 ∧ errField 0x08000000 ≠ 0 := ⟨_, rfl, rfl, by decide⟩

theorem witness_MultiplyAnswersTheProduct : (0x02 : Byte) ≠ 0 ∧ (0x80 : Byte) ≠ 0 := by decide

theorem witness_DivideAnswersTheQuotient : (0x01 : Byte) ≠ 0 ∧ (0xFF : Byte) ≠ 0 := by decide

theorem witness_InverseAnswersTheOneInverse : (0x53 : Byte) ≠ 0 := by decide

theorem witness_FieldLaws : (0x83 : Byte) ≠ 0 ∧ fieldMul 0x00 0x83 = 0 := by decide

theorem witness_ThreeGeneratesTheLogTables : (0x01 : Byte) ≠ 0 ∧ (0 < 255 ∧ 254 < 255) ∧ (0 < 1 ∧ 50 < 51) := by decide

theorem witness_BuildFillsTheCoefficientBuffer : (1 : Byte) ≠ 0 ∧ (255 : Byte) ≠ 0 ∧
    ∃ t, exec (.pbuild 0x48 3) full = .next t := ⟨by decide, by decide, _, rfl⟩

theorem witness_EvaluateAnswersTheValue : full.clen ≠ 0 ∧ full.mem.coef = 0x48 :: [0x9D, 0x3C] ∧
    (idle { blank with coef := [0x48] } []).mem.coef = [0x48] ∧ (idle blank []).clen = 0 := by decide

/-- The smallest and the largest legal split, and commands that draw. -/
theorem witness_DrawsAreExactlyCounted :
    (2 ≤ (2 : Count12).toNat ∧ (2 : Count12).toNat ≤ (2 : Count12).toNat ∧ (2 : Count12).toNat ≤ 255) ∧
    (2 ≤ (255 : Count12).toNat ∧ (255 : Count12).toNat ≤ (255 : Count12).toNat ∧ (255 : Count12).toNat ≤ 255) ∧
    (∃ t, exec (.split 5 3) full = .next t) ∧ (∀ b k, Instr.combine ≠ .pbuild b k) ∧ ∀ n k, Instr.combine ≠ .split n k :=
  ⟨by decide, by decide, ⟨_, rfl⟩, by intros; simp, by intros; simp⟩

/-- Each clause at its boundary (section 2.6): SPLIT 2, 2; 255, 255; 1, 1; 2, 3; 256, 256. -/
theorem witness_SplitWritesSharesInOrder :
    (2 ≤ (2 : Count12).toNat ∧ (2 : Count12).toNat ≤ (2 : Count12).toNat ∧ (255 : Count12).toNat ≤ 255) ∧
    (1 : Count12).toNat < 2 ∧ (2 ≤ (3 : Count12).toNat ∧ (2 : Count12).toNat < (3 : Count12).toNat) ∧
    (2 ≤ (256 : Count12).toNat ∧ (256 : Count12).toNat ≤ (256 : Count12).toNat ∧ 255 < (256 : Count12).toNat) := by decide

theorem witness_EmptySecretSplits : (idle blank []).mem.sec = [] ∧ (store [⟨1, []⟩]).slotLen (0 : Byte).toNat = some 0 := by decide

/-- Two shares, the fewest; then one share, unequal lengths, a repeated id. -/
theorem witness_CombineInterpolatesAtZero :
    (let s := store [⟨1, [0xAA]⟩, ⟨0xFF, [0xBB]⟩]
     2 ≤ s.scnt ∧ (∀ k < s.scnt, s.slotLen k = some 1) ∧ (s.mem.sh.map Share.id).Nodup) ∧
    (store [⟨4, [1, 2]⟩]).scnt < 2 ∧
    (let s := store [⟨4, [1, 2]⟩, ⟨4, [1]⟩]
     2 ≤ s.scnt ∧ ∃ k < s.scnt, s.slotLen k ≠ s.slotLen 0) ∧
    (let s := store [⟨4, [1, 2]⟩, ⟨4, [1, 2]⟩]
     2 ≤ s.scnt ∧ (∀ k < s.scnt, s.slotLen k = s.slotLen 0) ∧ ¬ (s.mem.sh.map Share.id).Nodup) :=
  ⟨by decide, by decide, ⟨by decide, 1, by decide⟩, by decide⟩

/-- The store [2, 4, 5] and its arrangement [5, 2, 4] (section 2.6). -/
theorem witness_CombineIgnoresSlotOrder :
    let a : Share := ⟨2, [0x99, 0x68]⟩
    let b : Share := ⟨4, [0xE7, 0x88]⟩
    let c : Share := ⟨5, [0x46, 0x3A]⟩
    [a, b, c].Perm [c, a, b] ∧
      (state (exec .combine (store [a, b, c]))).map State.rsp = some (some (success 0)) := by decide +kernel

theorem witness_CombineIsAFunctionOfTheShares : 2 ≤ full.scnt ∧ (∀ k < full.scnt, full.slotLen k = some 2) ∧
    (full.mem.sh.map Share.id).Nodup ∧ (store hiShares).mem.sh = full.mem.sh := by decide

/-- "Hi" with N = 5, K = 3 and the shares 2, 4 and 5 kept in another order (program P1). -/
theorem witness_AnyThresholdSharesRecoverTheSecret :
    2 ≤ (3 : Count12).toNat ∧ (3 : Count12).toNat ≤ (5 : Count12).toNat ∧ (5 : Count12).toNat ≤ 255 ∧
    ∃ t, exec (.split 5 3) (idle { blank with sec := [0x48, 0x69] } [0x9D, 0x3C, 0xA7, 0x15]) = .next t ∧
      (let kept : List Share := [⟨5, [0x46, 0x3A]⟩, ⟨2, [0x99, 0x68]⟩, ⟨4, [0xE7, 0x88]⟩]
       (∀ x ∈ kept, x ∈ t.mem.sh) ∧ (kept.map Share.id).Nodup ∧ (3 : Count12).toNat ≤ kept.length) :=
  ⟨by decide, by decide, by decide, _, rfl, by decide +kernel⟩

theorem witness_EncodeWritesIdThenPayload : full.mem.sh[(3 : Byte).toNat]? = some ⟨4, [0xE7, 0x88]⟩ ∧
    full.slotLen (4 : Byte).toNat = some 2 ∧ (∃ t, exec (.enc 4) full = .next t) ∧ full.scnt ≤ (5 : Byte).toNat :=
  ⟨by decide, by decide, ⟨_, rfl⟩, by decide⟩

/-- Section 2.7: a share; one byte; a zero id; a full store. -/
theorem witness_DecodeAppendsTheShare :
    (full.mem.io = 0x02 :: 0x99 :: [0x68] ∧ (0x02 : Byte) ≠ 0 ∧ full.scnt ≠ 255) ∧
    (idle { blank with io := [2] } []).iolen < 2 ∧ (idle { blank with io := [0, 0x99] } []).readByte (.io 0) = some 0 ∧
    (let s := idle { fullStore.mem with io := [7, 1] } []
     2 ≤ s.iolen ∧ s.readByte (.io 0) ≠ some 0 ∧ s.scnt = 255) := by decide +kernel

theorem witness_CodecRoundTrip :
    (full.mem.sh[(3 : Byte).toNat]? = some ⟨4, [0xE7, 0x88]⟩ ∧ ([0xE7, 0x88] : List Byte) ≠ [] ∧ (4 : Byte) ≠ 0 ∧ full.scnt ≠ 255) ∧
    (store [⟨1, []⟩]).mem.sh[(0 : Byte).toNat]? = some ⟨1, []⟩ := by decide

theorem witness_ClearsEmptyTheirSpace :
    (∃ t, exec .cclr full = .next t) ∧ (∃ t, exec .sclr full = .next t) ∧ (∃ t, exec .shclr full = .next t) ∧
    (∃ t, exec .ioclr full = .next t) ∧ (Loc.pay 4 1).space = .sh ∧ (Loc.id 4).space = .sh ∧ (Loc.sec 0).space = .sec :=
  ⟨⟨_, rfl⟩, ⟨_, rfl⟩, ⟨_, rfl⟩, ⟨_, rfl⟩, rfl, rfl, rfl⟩

/-- Room for one byte more, and none. -/
theorem witness_PushesAppendOneByte :
    (idle { blank with coef := List.replicate 254 1 } []).clen ≠ 255 ∧ (idle { blank with coef := List.replicate 255 1 } []).clen = 255 ∧
    (idle { blank with sec := [1, 2, 3] } []).slen ≠ 4 ∧ (idle { blank with sec := [1, 2, 3, 4] } []).slen = 4 ∧
    (idle { blank with io := [1, 2, 3, 4] } []).iolen ≠ 4 + 1 ∧ (idle { blank with io := [1, 2, 3, 4, 5] } []).iolen = 4 + 1 ∧
    ∃ t, exec (.cpush 0x15) full = .next t ∧ t.rsp = some (success 0) :=
  ⟨by decide +kernel, by decide +kernel, by decide, by decide, by decide, by decide, _, rfl, rfl⟩

theorem witness_IndexedReadsAnswerTheCell :
    full.readByte (.coef (2 : Byte).toNat) = some 0x3C ∧ full.readByte (.sec (1 : Half).toNat) = some 0x69 ∧
    full.readByte (.io (2 : Half).toNat) = some 0x68 ∧ full.clen ≤ (3 : Byte).toNat ∧ full.slen ≤ (2 : Half).toNat ∧
    full.iolen ≤ (3 : Half).toNat := by decide

/-- The first and the last slot, and the one after it. -/
theorem witness_DeleteClosesTheGap : (0 : Byte).toNat < full.scnt ∧ (4 : Byte).toNat < full.scnt ∧ full.scnt ≤ (5 : Byte).toNat := by
  decide

theorem witness_SlotReadsAnswerTheShare : full.Inv ∧ full.readByte (.id (4 : Byte).toNat) = some 5 ∧
    full.slotLen (4 : Byte).toNat = some 2 ∧ full.readByte (.pay (4 : Byte).toNat (1 : Half).toNat) = some 0x3A ∧
    full.scnt ≤ (5 : Byte).toNat ∧ 2 ≤ (2 : Half).toNat := ⟨full_inv, by decide⟩

theorem witness_RegisterReadAnswersTheRegister : full.Inv ∧ 5 ≤ (5 : Byte).toNat ∧ 5 ≤ (255 : Byte).toNat :=
  ⟨full_inv, by decide⟩

theorem witness_CommandsWriteOnlyTheirSpaces : (∃ t, exec .combine full = .next t) ∧ Space.sh ∉ mayWrite .combine ∧
    (Loc.id 0).space = .sh ∧ (∃ t, exec (.shid 1) full = .next t) ∧ mayWrite (.shid 1) = [] :=
  ⟨⟨_, rfl⟩, by decide, rfl, ⟨_, rfl⟩, rfl⟩

/-- Two states with the same shares and different secrets. -/
theorem witness_AnswersDependOnlyOnSpacesRead :
    let s := full
    let s' := full.setSec [0x00, 0x11, 0x22]
    (∀ sp ∈ mayRead .combine, SameSpace sp s s') ∧ s'.src = s.src ∧ s'.lmax = s.lmax ∧
      (∃ t, exec .combine s = .next t) ∧ (∃ t, exec .combine s' = .next t) ∧ s.mem.sec ≠ s'.mem.sec :=
  ⟨by simp [mayRead, SameSpace, State.setSec], rfl, rfl, ⟨_, rfl⟩, ⟨_, rfl⟩, by decide⟩

end Sys2Proof.Tests
end

section
/-!
PROOFS. Steps, the handshake and reset: a step on a command word in flight is the engine's run of that word.
-/

namespace Sys2Proof.Machine

/-- The engine, given a word that is a command, executes that command (30_encoding R88). -/
theorem runWord_of_decode {w : Word} {i : Instr} (h : decode w = .instr i) (s : State) : runWord w s = exec i s := by
  simp [runWord, h]

/-- Settles O12: the turn is the engine's, and the engine's run of the word is `exec` of the command it decodes to. -/
theorem stepRunsTheDecodedCommand : Obligations.StepRunsTheDecodedCommand := by
  intro s w i hcmd hreset hdecode
  calc step s = runWord w s := step_engine hcmd hreset
    _ = exec i s := runWord_of_decode hdecode s

end Sys2Proof.Machine
end

section
/-!
PROOFS. Words and responses as numbers: what the engine does with a word once its decoding is known, for every format and for
format A, and what the reads of a length answer.
-/

namespace Sys2Proof.Machine

variable {s : State}

/-- A word that decodes to a command runs it in every state (00_scope R13). -/
theorem wordExecutes_of_decode {n : Nat} {i : Instr} (h : decode (BitVec.ofNat 32 n) = .instr i) : WordExecutes n i :=
  fun s hcmd hreset => stepRunsTheDecodedCommand s _ i hcmd hreset h

/-- A word that is no command is answered by IllegalCommand and changes nothing (30_encoding R88). -/
theorem wordIllegal_of_decode {w : Word} (h : ∀ i, decode w ≠ .instr i) : WordIllegal w := by
  intro s hcmd hreset
  rw [step_engine hcmd hreset]
  rcases runWord_cases w s with ⟨i, hi, -⟩ | ⟨-, hraise⟩
  · exact absurd hi (h i)
  · exact hraise

/-- An opcode whose words are accepted only if the mask is clear makes every word with a bit of the mask set illegal
(30_encoding R86). -/
theorem reservedBitsIllegal_of_ifClear {op : Nat} {mask : Word} {mk : Word → Instr}
    (h : ∀ w, (opField w).toNat = op → decode w = ifClear w mask (mk w)) : ReservedBitsIllegal op mask := by
  intro w hop hset
  refine wordIllegal_of_decode fun i => ?_
  rw [h w (by rw [opField_toNat, hop]), ifClear, if_neg hset]
  simp

/-- Where an opcode's words have format A, the word made of the opcode and the operand runs the command (30_encoding R72). -/
theorem wordExecutes_formatA {op : Nat} {mk : Byte → Instr}
    (h : ∀ w, (opField w).toNat = op → decode w = decodeA w mk) (hop : op < 256) (a : Byte) :
    WordExecutes (op * 2 ^ 24 + a.toNat * 2 ^ 16) (mk a) := by
  apply wordExecutes_of_decode
  generalize hw : BitVec.ofNat 32 (op * 2 ^ 24 + a.toNat * 2 ^ 16) = w
  have ha := a.isLt
  have hn : w.toNat = op * 2 ^ 24 + a.toNat * 2 ^ 16 := by
    rw [← hw, BitVec.toNat_ofNat, Nat.mod_eq_of_lt (by omega)]
  have hopField : (opField w).toNat = op := by rw [opField_toNat, hn]; omega
  have hclear : w &&& maskA = 0 := (and_maskA w).mpr (by rw [hn]; omega)
  have haField : aField w = a := BitVec.eq_of_toNat_eq (by rw [aField_toNat, hn]; omega)
  rw [h w hopField, decodeA, ifClear, if_pos hclear, haField]

/-- The words with opcode 0x60 have format A and are RDR (30_encoding R84). -/
theorem decode_rdr {w : Word} (h : (opField w).toNat = 0x60) : decode w = decodeA w .rdr := by
  simp [decode, h]

/-- A length that fits the data field is answered as it is (30_encoding R77). -/
theorem respondLength_some {n : Nat} (h : n < 2 ^ 16) : respondLength (some n) s = .next (s.answered (success n)) := by
  have hn : (lengthData n).toNat = n := by rw [lengthData, BitVec.toNat_ofNat, Nat.mod_eq_of_lt h]
  have hw : responseWord 0x00 (lengthData n) = success n := by rw [responseWord_success, hn, success]
  rw [← hw]
  rfl

/-- There are five registers (10_state R27). -/
theorem register_eq_none {r : Nat} (h : 5 ≤ r) : s.register r = none := by
  match r, h with
  | _ + 5, _ => rfl

/-- RDR of a register whose value fits the data field answers the value (46_buffer_access R185). -/
theorem responds_rdr {r : Byte} {n : Nat} (hr : s.register r.toNat = some n) (hn : n < 2 ^ 16) :
    Responds (.rdr r) s (success n) := by
  show respondLength (s.register r.toNat) s = _
  rw [hr, respondLength_some hn]

/-- RDR where there is no register is BadAddress (46_buffer_access R185). -/
theorem responds_rdr_badAddress {r : Byte} (hr : 5 ≤ r.toNat) : Responds (.rdr r) s 0x81000000 := by
  show respondLength (s.register r.toNat) s = _
  rw [register_eq_none hr]
  rfl

/-- In a state of the invariant every register fits 16 bits (10_state R27: LMAX+1 is at most 65535). -/
theorem registers_lt_of_inv (h : s.Inv) :
    s.slen < 2 ^ 16 ∧ s.clen < 2 ^ 16 ∧ s.scnt < 2 ^ 16 ∧ s.iolen < 2 ^ 16 ∧ s.lmax < 2 ^ 16 := by
  obtain ⟨⟨-, hmax⟩, ⟨hsec, hcoef, hsh, hio, -⟩, -⟩ := h
  simp only [Config.cmax, Config.nslot] at hcoef hsh
  simp only [State.slen, State.clen, State.scnt, State.iolen]
  omega

/-- Settles O58: RDR is `respondLength` of a register, each register fits the data field in a state of the invariant, and the
opcode 0x60 has format A. -/
theorem registerReadAnswersTheRegister : Obligations.RegisterReadAnswersTheRegister := by
  refine ⟨fun s hinv => ?_, fun r s => responds_rdr_badAddress, wordExecutes_formatA (fun _ => decode_rdr) (by norm_num),
    reservedBitsIllegal_of_ifClear fun _ => decode_rdr⟩
  obtain ⟨hs, hc, hn, hi, hl⟩ := registers_lt_of_inv hinv
  exact ⟨responds_rdr rfl hs, responds_rdr rfl hc, responds_rdr rfl hn, responds_rdr rfl hi, responds_rdr rfl hl,
    hs, hc, hn, hi, hl⟩

end Sys2Proof.Machine
end

section
/-!
PROOFS. What each command writes, said once for all commands: the inversion of `exec` by the writing commands, from which the
invariant and the frames follow.
-/

namespace Sys2Proof.Machine

variable {s t : State}

/-- `Writes s i u`: the command `i`, where it succeeds in `s` and writes, leaves memory and the source as in `u`. One rule per
command with a W entry in the table of 10_state R32. -/
inductive Writes (s : State) : Instr → State → Prop
  | pbuild (b k : Byte) : Writes s (.pbuild b k)
      ((s.setCoef (b :: (List.range (k.toNat - 1)).map s.src.answer)).setSrc (s.src.after (k.toNat - 1)))
  | cclr : Writes s .cclr (s.setCoef [])
  | cpush (b : Byte) (hroom : s.clen ≠ 255) : Writes s (.cpush b) (s.setCoef (s.mem.coef ++ [b]))
  | split (n k : Count12) (hn : n.toNat ≤ 255) : Writes s (.split n k)
      (((s.setSh (splitShares (splitPolys k.toNat s.mem.sec s.src).1 n.toNat)).setSec []).setSrc
        (s.src.after (s.slen * (k.toNat - 1))))
  | sclr : Writes s .sclr (s.setSec [])
  | spush (b : Byte) (hroom : s.slen ≠ s.lmax) : Writes s (.spush b) (s.setSec (s.mem.sec ++ [b]))
  | combine (ws : List Byte) : Writes s .combine (s.setSec (combineBytes s.mem.sh ws (firstLen s.mem.sh)))
  | shclr : Writes s .shclr (s.setSh [])
  | shdel (j : Byte) : Writes s (.shdel j) (s.setSh (s.mem.sh.eraseIdx j.toNat))
  | enc (j : Byte) (x : Share) (hx : s.mem.sh[j.toNat]? = some x) : Writes s (.enc j) (s.setIo (x.id :: x.pay))
  | dec (x : Share) (hx : decodeShare s.mem.io = some x) (hroom : s.scnt ≠ 255) : Writes s .dec (s.setSh (s.mem.sh ++ [x]))
  | ioclr : Writes s .ioclr (s.setIo [])
  | iopush (b : Byte) (hroom : s.iolen ≠ s.lmax + 1) : Writes s (.iopush b) (s.setIo (s.mem.io ++ [b]))

/-! ### The commands that only read -/

theorem respondByte_answer {b : Option Byte} (h : respondByte b s = .next t) : ∃ e d, t = s.answer e d := by
  rcases respondByte_next h with ⟨_, -, h⟩ | ⟨-, h⟩ <;> exact ⟨_, _, h⟩

theorem respondLength_answer {n : Option Nat} (h : respondLength n s = .next t) : ∃ e d, t = s.answer e d := by
  rcases respondLength_next h with ⟨_, -, h⟩ | ⟨-, h⟩ <;> exact ⟨_, _, h⟩

theorem respondField_answer {b : Option Byte} (h : respondField b s = .next t) : ∃ e d, t = s.answer e d := by
  rcases respondField_next h with ⟨_, -, h⟩ | ⟨-, h⟩ <;> exact ⟨_, _, h⟩

theorem execPeval_answer {x : Byte} (h : execPeval x s = .next t) : ∃ e d, t = s.answer e d := by
  unfold execPeval at h
  split at h
  · exact ⟨_, _, raise_next h⟩
  · exact ⟨_, _, respond_next h⟩

/-- Every command only puts a response on the channel, or writes by its rule and answers success with data 0. -/
theorem exec_writes {i : Instr} (h : exec i s = .next t) :
    (∃ e d, t = s.answer e d) ∨ ∃ u, Writes s i u ∧ t = u.answer 0x00 0 := by
  cases i with
  | fadd a b | fsub a b | fmul a b => exact .inl ⟨_, _, respond_next h⟩
  | fdiv a b | finv a => exact .inl (respondField_answer h)
  | peval x => exact .inl (execPeval_answer h)
  | crd j | srd idx | iord idx | shid j | shrd j idx => exact .inl (respondByte_answer h)
  | shlen j | rdr r => exact .inl (respondLength_answer h)
  | pbuild b k =>
    rcases execPbuild_next h with ⟨-, h⟩ | ⟨-, h⟩
    · exact .inl ⟨_, _, h⟩
    · exact .inr ⟨_, .pbuild b k, h⟩
  | cclr => exact .inr ⟨_, .cclr, respond_next h⟩
  | cpush b =>
    rcases execCpush_next h with ⟨-, h⟩ | ⟨hroom, h⟩
    · exact .inl ⟨_, _, h⟩
    · exact .inr ⟨_, .cpush b hroom, h⟩
  | split n k =>
    rcases execSplit_next h with ⟨e, -, h⟩ | ⟨-, -, hn, h⟩
    · exact .inl ⟨_, _, h⟩
    · exact .inr ⟨_, .split n k hn, h⟩
  | sclr => exact .inr ⟨_, .sclr, respond_next h⟩
  | spush b =>
    rcases execSpush_next h with ⟨-, h⟩ | ⟨hroom, h⟩
    · exact .inl ⟨_, _, h⟩
    · exact .inr ⟨_, .spush b hroom, h⟩
  | combine =>
    rcases execCombine_next h with ⟨e, -, h⟩ | ⟨ws, -, -, -, -, h⟩
    · exact .inl ⟨_, _, h⟩
    · exact .inr ⟨_, .combine ws, h⟩
  | shclr => exact .inr ⟨_, .shclr, respond_next h⟩
  | shdel j =>
    rcases execShdel_next h with ⟨-, h⟩ | ⟨-, h⟩
    · exact .inl ⟨_, _, h⟩
    · exact .inr ⟨_, .shdel j, h⟩
  | enc j =>
    rcases execEnc_next h with ⟨-, h⟩ | ⟨x, hx, h⟩
    · exact .inl ⟨_, _, h⟩
    · exact .inr ⟨_, .enc j x hx, h⟩
  | dec =>
    rcases execDec_next h with ⟨-, h⟩ | ⟨x, -, -, h⟩ | ⟨x, hx, hroom, h⟩
    · exact .inl ⟨_, _, h⟩
    · exact .inl ⟨_, _, h⟩
    · exact .inr ⟨_, .dec x hx hroom, h⟩
  | ioclr => exact .inr ⟨_, .ioclr, respond_next h⟩
  | iopush b =>
    rcases execIopush_next h with ⟨-, h⟩ | ⟨hroom, h⟩
    · exact .inl ⟨_, _, h⟩
    · exact .inr ⟨_, .iopush b hroom, h⟩

/-- LMAX and the host's side never change, and no command stays in flight (20_memory R54, R59). -/
theorem exec_host {i : Instr} (h : exec i s = .next t) :
    t.lmax = s.lmax ∧ t.todo = s.todo ∧ t.received = s.received ∧ t.cmd = none := by
  rcases exec_next h with ⟨e, rfl⟩ | ⟨m, r, d, rfl⟩ <;> exact ⟨rfl, rfl, rfl, rfl⟩

end Sys2Proof.Machine
end

section
/-!
PROOFS. The invariant: reset establishes it, and every command, the reset event and the host's turn keep it (10_state R33).
-/

namespace Sys2Proof.Machine

variable {s t u : State}

/-! ### The written values fit their spaces -/

/-- The ids of a split are not 0 (43_splitter R141). -/
theorem shareId_ne_zero {j : Nat} (h : j < 255) : shareId j ≠ 0 := by
  intro h0
  have hn : (j + 1) % 2 ^ 8 = 0 := by simpa [shareId] using congrArg BitVec.toNat h0
  omega

/-- The shares of a split have one payload byte per polynomial and a non-zero id. -/
theorem splitShares_wf {polys : List (List Byte)} {n lmax : Nat} (hp : polys.length ≤ lmax) (hn : n ≤ 255) :
    ∀ x ∈ splitShares polys n, x.wf lmax := by
  intro x hx
  obtain ⟨j, hj, rfl⟩ := List.mem_map.mp hx
  exact ⟨by simpa [splitShare] using hp, shareId_ne_zero ((List.mem_range.mp hj).trans_le hn)⟩

/-- The length COMBINE works with is a payload's length, or 0. -/
theorem firstLen_le {sh : List Share} {lmax : Nat} (h : ∀ x ∈ sh, x.wf lmax) : firstLen sh ≤ lmax := by
  cases sh with
  | nil => exact Nat.zero_le _
  | cons x xs => exact (h x List.mem_cons_self).1

/-- A decoded share takes one byte of its buffer for the id (45_codec R161). -/
theorem decodeShare_wf {bytes : List Byte} {x : Share} {lmax : Nat} (h : decodeShare bytes = some x)
    (hb : bytes.length ≤ lmax + 1) : x.wf lmax := by
  obtain ⟨rfl, hid, -⟩ := decodeShare_eq_some.mp h
  exact ⟨by simpa [encodeShare] using hb, hid⟩

/-- The writes of every command keep the form of memory (10_state R33 (a) and (b)). -/
theorem Writes.wf {i : Instr} (hw : Writes s i u) (h : s.mem.wf s.lmax) : u.mem.wf s.lmax := by
  have ⟨hsec, hcoef, hsh, hio, hslots⟩ := h
  cases hw with
  | pbuild b k =>
    have hk := k.isLt
    exact setCoef_wf h (by simp [Config.cmax]; omega)
  | cclr => exact setCoef_wf h (Nat.zero_le _)
  | cpush b hroom =>
    simp only [State.clen, Config.cmax] at hroom hcoef
    exact setCoef_wf h (by simp [Config.cmax]; omega)
  | split n k hn =>
    have hlen : (splitPolys k.toNat s.mem.sec s.src).1.length ≤ s.lmax := by
      rwa [(splitPolys_length k.toNat s.mem.sec s.src).1]
    have hcount : (splitShares (splitPolys k.toNat s.mem.sec s.src).1 n.toNat).length ≤ Config.nslot := by
      simpa [splitShares, Config.nslot] using hn
    exact setSec_wf (setSh_wf h hcount (splitShares_wf hlen hn)) (Nat.zero_le _)
  | sclr => exact setSec_wf h (Nat.zero_le _)
  | spush b hroom =>
    simp only [State.slen] at hroom
    exact setSec_wf h (by simp; omega)
  | combine ws => exact setSec_wf h (by simpa [combineBytes] using firstLen_le hslots)
  | shclr => exact setSh_wf h (Nat.zero_le _) (by simp)
  | shdel j =>
    exact setSh_wf h ((List.length_eraseIdx_le _ _).trans hsh) fun x hx => hslots x (List.mem_of_mem_eraseIdx hx)
  | enc j x hx =>
    obtain ⟨hpay, -⟩ := hslots x (List.mem_of_getElem? hx)
    exact setIo_wf h (by simpa using hpay)
  | dec x hx hroom =>
    simp only [State.scnt, Config.nslot] at hroom hsh
    refine setSh_wf h (by simp [Config.nslot]; omega) fun y hy => ?_
    rcases List.mem_append.mp hy with hy | hy
    · exact hslots y hy
    · rw [List.mem_singleton.mp hy]
      exact decodeShare_wf hx hio
  | ioclr => exact setIo_wf h (Nat.zero_le _)
  | iopush b hroom =>
    simp only [State.iolen] at hroom
    exact setIo_wf h (by simp; omega)

/-! ### The three kinds of step -/

/-- Every command keeps the form of memory. -/
theorem exec_wf {i : Instr} (h : exec i s = .next t) (hwf : s.mem.wf s.lmax) : t.mem.wf s.lmax := by
  rcases exec_writes h with ⟨e, d, rfl⟩ | ⟨u, hu, rfl⟩
  · exact hwf
  · exact hu.wf hwf

/-- The engine on any word keeps the form of memory and LMAX, and leaves no command in flight. -/
theorem runWord_wf {w : Word} (h : runWord w s = .next t) (hwf : s.mem.wf s.lmax) :
    t.mem.wf s.lmax ∧ t.lmax = s.lmax ∧ t.cmd = none := by
  rcases runWord_cases w s with ⟨i, -, hi⟩ | ⟨-, hi⟩
  · rw [hi] at h
    obtain ⟨hlmax, -, -, hcmd⟩ := exec_host h
    exact ⟨exec_wf h hwf, hlmax, hcmd⟩
  · cases hi.symm.trans h
    exact ⟨hwf, rfl, rfl⟩

/-- The host moves no memory, and has at most one command outstanding: it sends only when no response waits (20_memory R59). -/
theorem hostTurn_outstanding (hcmd : s.cmd = none) :
    (hostTurn s).mem = s.mem ∧ (hostTurn s).lmax = s.lmax ∧ ((hostTurn s).cmd = none ∨ (hostTurn s).rsp = none) := by
  rcases hostTurn_cases s with ⟨r, rest, -, -, h⟩ | ⟨r, w, rest, -, -, h⟩ | ⟨w, rest, hrsp, -, h⟩ | ⟨rest, -, -, h⟩ | h <;>
    rw [h]
  · exact ⟨rfl, rfl, .inr rfl⟩
  · exact ⟨rfl, rfl, .inr rfl⟩
  · exact ⟨rfl, rfl, .inr hrsp⟩
  · exact ⟨rfl, rfl, .inl hcmd⟩
  · exact ⟨rfl, rfl, .inl hcmd⟩

/-- What is left of the invariant once LMAX stands: the form of memory, and one command outstanding. -/
theorem inv_of_lmax_eq (h : s.Inv) (hlmax : t.lmax = s.lmax) (hwf : t.mem.wf s.lmax) (hone : t.cmd = none ∨ t.rsp = none) :
    t.Inv ∧ t.lmax = s.lmax := by
  obtain ⟨hrange, -, -⟩ := h
  refine ⟨⟨?_, ?_, hone⟩, hlmax⟩
  · rwa [hlmax]
  · rwa [hlmax]

/-- Settles O19: by whose turn it is. A reset empties memory, the engine's word writes values that fit, and the host sends a word
only when no response waits. -/
theorem everyStepKeepsTheInvariant : Obligations.EveryStepKeepsTheInvariant := by
  intro s t hinv hstep
  have ⟨_, hwf, _⟩ := hinv
  by_cases hreset : s.noReset
  · cases hcmd : s.cmd with
    | some w =>
      rw [step_engine hcmd hreset] at hstep
      obtain ⟨hmem, hlmax, hdone⟩ := runWord_wf hstep hwf
      exact inv_of_lmax_eq hinv hlmax hmem (.inl hdone)
    | none =>
      cases (step_host hcmd hreset).symm.trans hstep
      obtain ⟨hmem, hlmax, hone⟩ := hostTurn_outstanding hcmd
      exact inv_of_lmax_eq hinv hlmax (by rwa [hmem]) hone
  · obtain ⟨rest, htodo⟩ := not_forall_not.mp hreset
    cases (step_reset htodo).symm.trans hstep
    exact inv_of_lmax_eq hinv rfl (emptyMemory_wf _) (.inl rfl)

/-! ### Reset -/

/-- Settles O18: LMAX is in its range, empty memory has the form of memory, and nothing is in flight. -/
theorem resetStateMeetsTheInvariant : Obligations.ResetStateMeetsTheInvariant :=
  ⟨configLmax_range, resetMemory_wf, .inl rfl⟩

/-- Empty memory holds no readable cell (20_memory R55). -/
theorem readByte_of_reset_mem (h : s.mem = State.reset.mem) (l : Loc) : s.readByte l = none := by
  cases l <;> simp [State.readByte, readCell, readSlot, h, State.reset]

/-- Empty memory has no occupied slot. -/
theorem slotLen_of_reset_mem (h : s.mem = State.reset.mem) (k : Nat) : s.slotLen k = none := by
  simp [State.slotLen, readSlot, h, State.reset]

/-- Settles O16: the step is the reset event, which leaves the memory of `State.reset` and both channels empty. -/
theorem resetEmptiesEverything : Obligations.ResetEmptiesEverything := by
  intro s rest htodo
  have hmem : (resetEvent rest s).mem = State.reset.mem := rfl
  exact ⟨_, step_reset htodo, rfl, rfl, rfl, rfl, readByte_of_reset_mem hmem, slotLen_of_reset_mem hmem, rfl, rfl⟩

end Sys2Proof.Machine
end

section
/-!
PROOFS. The frame of every command, from the W entries of 10_state R32.
-/

namespace Sys2Proof.Machine

variable {s t u : State} {sp : Space}

/-! ### What an equal space has equal -/

theorem SameSpace.lengthOf_eq (h : SameSpace sp s t) : t.lengthOf sp = s.lengthOf sp := by
  cases sp <;> exact congrArg List.length h

theorem SameSpace.readByte_eq {l : Loc} (h : SameSpace l.space s t) : t.readByte l = s.readByte l := by
  cases l with
  | sec i => exact congrArg (readCell · i) h
  | coef i => exact congrArg (readCell · i) h
  | id j => exact congrArg (fun sh => (readSlot sh j).map Share.id) h
  | pay j q => exact congrArg (fun sh => (readSlot sh j).bind fun x => readCell x.pay q) h
  | io i => exact congrArg (readCell · i) h

theorem SameSpace.slotLen_eq (h : SameSpace .sh s t) (j : Nat) : t.slotLen j = s.slotLen j :=
  congrArg (fun sh : List Share => (readSlot sh j).map fun x : Share => x.pay.length) h

/-! ### What an update leaves -/

theorem sameSpace_of_mem_eq (h : t.mem = s.mem) : SameSpace sp s t := by
  cases sp <;> simp [SameSpace, h]

theorem sameSpace_setSec {v : List Byte} (h : sp ∉ [.sec]) : SameSpace sp s (s.setSec v) := by
  cases sp <;> simp_all [SameSpace]

theorem sameSpace_setCoef {v : List Byte} (h : sp ∉ [.coef]) : SameSpace sp s (s.setCoef v) := by
  cases sp <;> simp_all [SameSpace]

theorem sameSpace_setSh {x : List Share} (h : sp ∉ [.sh]) : SameSpace sp s (s.setSh x) := by
  cases sp <;> simp_all [SameSpace]

theorem sameSpace_setIo {v : List Byte} (h : sp ∉ [.io]) : SameSpace sp s (s.setIo v) := by
  cases sp <;> simp_all [SameSpace]

/-- The writes of a command leave every space that the table does not mark W for it. -/
theorem Writes.sameSpace {i : Instr} (hw : Writes s i u) (h : sp ∉ mayWrite i) : SameSpace sp s u := by
  cases hw with
  | pbuild | cclr | cpush => exact sameSpace_setCoef h
  | sclr | spush | combine => exact sameSpace_setSec h
  | shclr | shdel | dec => exact sameSpace_setSh h
  | enc | ioclr | iopush => exact sameSpace_setIo h
  | split => cases sp <;> simp_all [SameSpace, mayWrite]

/-- Only a command with a W entry writes. -/
theorem Writes.mayWrite_ne_nil {i : Instr} (hw : Writes s i u) : mayWrite i ≠ [] := by
  cases hw <;> exact List.cons_ne_nil _ _

theorem exec_sameSpace {i : Instr} (h : exec i s = .next t) (hsp : sp ∉ mayWrite i) : SameSpace sp s t := by
  rcases exec_writes h with ⟨e, d, rfl⟩ | ⟨u, hu, rfl⟩
  · exact sameSpace_of_mem_eq rfl
  · have hsame := hu.sameSpace hsp
    cases sp <;> exact hsame

/-- A command with no W entry leaves memory and the source as they were (20_memory R54). -/
theorem exec_readOnly {i : Instr} (h : exec i s = .next t) (hi : mayWrite i = []) : t.mem = s.mem ∧ t.src = s.src := by
  rcases exec_writes h with ⟨e, d, rfl⟩ | ⟨u, hu, -⟩
  · exact ⟨rfl, rfl⟩
  · exact absurd hi hu.mayWrite_ne_nil

/-- Settles O59: the frame of `exec` space by space, on the host's side, and for the commands that only read. -/
theorem commandsWriteOnlyTheirSpaces : Obligations.CommandsWriteOnlyTheirSpaces := by
  refine ⟨fun i s t sp h hsp => ?_, fun i s t => exec_host, fun i s t => exec_readOnly⟩
  have hsame := exec_sameSpace h hsp
  refine ⟨hsame, hsame.lengthOf_eq, fun l hl => ?_⟩
  subst hl
  exact hsame.readByte_eq

end Sys2Proof.Machine
end

section
/-!
PROOFS. Non-interference, from the R entries of 10_state R32: two runs of one command, side by side. Where the states agree on
what the command reads, both runs take the same branch and end by the same operation.
-/

namespace Sys2Proof.Machine

/-- The outcomes `o` from `s` and `o'` from `s'` agree: one response, one source, and each space of `ws` equal in both or unchanged
in both. -/
def OutcomesAgree (ws : List Space) (s s' : State) (o o' : Host.Outcome State Fault Refusal) : Prop :=
  ∀ t t', o = .next t → o' = .next t' →
    t'.rsp = t.rsp ∧ t'.src = t.src ∧ ∀ sp ∈ ws, SameSpace sp t t' ∨ (SameSpace sp s t ∧ SameSpace sp s' t')

variable {ws : List Space} {s s' : State}

/-! ### The ways two runs end alike -/

/-- The same response with nothing else changed. -/
theorem answer_agree (hsrc : s'.src = s.src) (e : Byte) (d : Half) :
    OutcomesAgree ws s s' (.next (s.answer e d)) (.next (s'.answer e d)) := by
  rintro _ _ ⟨⟩ ⟨⟩
  exact ⟨rfl, hsrc, fun _ _ => .inr ⟨sameSpace_of_mem_eq rfl, sameSpace_of_mem_eq rfl⟩⟩

/-- The same success after writes that leave the source and the written spaces equal. -/
theorem respond_agree {u u' : State} {d : Half} (hsrc : u'.src = u.src) (hw : ∀ sp ∈ ws, SameSpace sp u u') :
    OutcomesAgree ws s s' (respond d u) (respond d u') := by
  rintro _ _ ⟨⟩ ⟨⟩
  refine ⟨rfl, hsrc, fun sp hsp => .inl ?_⟩
  have hsame := hw sp hsp
  cases sp <;> exact hsame

theorem respondByte_agree {b b' : Option Byte} (hsrc : s'.src = s.src) (hb : b' = b) :
    OutcomesAgree ws s s' (respondByte b s) (respondByte b' s') := by
  subst hb
  cases b' <;> exact answer_agree hsrc _ _

theorem respondLength_agree {n n' : Option Nat} (hsrc : s'.src = s.src) (hn : n' = n) :
    OutcomesAgree ws s s' (respondLength n s) (respondLength n' s') := by
  subst hn
  cases n' <;> exact answer_agree hsrc _ _

theorem respondField_agree {b : Option Byte} (hsrc : s'.src = s.src) :
    OutcomesAgree ws s s' (respondField b s) (respondField b s') := by
  cases b <;> exact answer_agree hsrc _ _

/-- The same error, or else runs that agree: a check that both states pass or both fail. -/
theorem check_agree {p : Prop} [Decidable p] {e : Err} {o o' : Host.Outcome State Fault Refusal} (hsrc : s'.src = s.src)
    (h : OutcomesAgree ws s s' o o') :
    OutcomesAgree ws s s' (if p then raise e s else o) (if p then raise e s' else o') := by
  split
  · exact answer_agree hsrc _ _
  · exact h

/-! ### The commands with checks of their own -/

theorem execPbuild_agree (b k : Byte) (hsrc : s'.src = s.src) :
    OutcomesAgree [.coef] s s' (execPbuild b k s) (execPbuild b k s') := by
  simp only [execPbuild, hsrc]
  exact check_agree hsrc (respond_agree rfl (by simp [SameSpace]))

theorem execPeval_agree (x : Byte) (hcoef : s'.mem.coef = s.mem.coef) (hsrc : s'.src = s.src) :
    OutcomesAgree [] s s' (execPeval x s) (execPeval x s') := by
  simp only [execPeval, State.clen, hcoef]
  exact check_agree hsrc (answer_agree hsrc _ _)

theorem execCpush_agree (b : Byte) (hcoef : s'.mem.coef = s.mem.coef) (hsrc : s'.src = s.src) :
    OutcomesAgree [.coef] s s' (execCpush b s) (execCpush b s') := by
  simp only [execCpush, State.clen, hcoef]
  exact check_agree hsrc (respond_agree hsrc (by simp [SameSpace]))

theorem execSplit_agree (n k : Count12) (hsec : s'.mem.sec = s.mem.sec) (hsrc : s'.src = s.src) :
    OutcomesAgree [.sec, .sh] s s' (execSplit n k s) (execSplit n k s') := by
  simp only [execSplit, hsec, hsrc]
  exact check_agree hsrc (check_agree hsrc (check_agree hsrc (respond_agree rfl (by simp [SameSpace]))))

theorem execSpush_agree (b : Byte) (hsec : s'.mem.sec = s.mem.sec) (hlmax : s'.lmax = s.lmax) (hsrc : s'.src = s.src) :
    OutcomesAgree [.sec] s s' (execSpush b s) (execSpush b s') := by
  simp only [execSpush, State.slen, hsec, hlmax]
  exact check_agree hsrc (respond_agree hsrc (by simp [SameSpace]))

theorem execCombine_agree (hsh : s'.mem.sh = s.mem.sh) (hsrc : s'.src = s.src) :
    OutcomesAgree [.sec] s s' (execCombine s) (execCombine s') := by
  simp only [execCombine, State.scnt, hsh]
  refine check_agree hsrc (check_agree hsrc (check_agree hsrc ?_))
  cases weights (s.mem.sh.map Share.id) with
  | none => exact answer_agree hsrc _ _
  | some ws => exact respond_agree hsrc (by simp [SameSpace])

theorem execShdel_agree (j : Byte) (hsh : s'.mem.sh = s.mem.sh) (hsrc : s'.src = s.src) :
    OutcomesAgree [.sh] s s' (execShdel j s) (execShdel j s') := by
  simp only [execShdel, State.scnt, hsh]
  exact check_agree hsrc (respond_agree hsrc (by simp [SameSpace]))

theorem execEnc_agree (j : Byte) (hsh : s'.mem.sh = s.mem.sh) (hsrc : s'.src = s.src) :
    OutcomesAgree [.io] s s' (execEnc j s) (execEnc j s') := by
  simp only [execEnc, hsh]
  cases readSlot s.mem.sh j.toNat with
  | none => exact answer_agree hsrc _ _
  | some x => exact respond_agree hsrc (by simp [SameSpace])

theorem execDec_agree (hio : s'.mem.io = s.mem.io) (hsh : s'.mem.sh = s.mem.sh) (hsrc : s'.src = s.src) :
    OutcomesAgree [.sh] s s' (execDec s) (execDec s') := by
  simp only [execDec, State.scnt, hio, hsh]
  cases decodeShare s.mem.io with
  | none => exact answer_agree hsrc _ _
  | some x => exact check_agree hsrc (respond_agree hsrc (by simp [SameSpace]))

theorem execIopush_agree (b : Byte) (hio : s'.mem.io = s.mem.io) (hlmax : s'.lmax = s.lmax) (hsrc : s'.src = s.src) :
    OutcomesAgree [.io] s s' (execIopush b s) (execIopush b s') := by
  simp only [execIopush, State.iolen, hio, hlmax]
  exact check_agree hsrc (respond_agree hsrc (by simp [SameSpace]))

/-- The register RDR reads is the same in both states: it is the length of the one space marked R, or LMAX, or none. -/
theorem register_eq_of_sameSpace {r : Byte} (h : ∀ sp ∈ mayRead (.rdr r), SameSpace sp s s') (hlmax : s'.lmax = s.lmax) :
    s'.register r.toNat = s.register r.toNat := by
  simp only [mayRead] at h
  unfold State.register
  split <;> rename_i hr
  · exact congrArg some (SameSpace.lengthOf_eq (sp := .sec) (h _ (by simp [hr])))
  · exact congrArg some (SameSpace.lengthOf_eq (sp := .coef) (h _ (by simp [hr])))
  · exact congrArg some (SameSpace.lengthOf_eq (sp := .sh) (h _ (by simp [hr])))
  · exact congrArg some (SameSpace.lengthOf_eq (sp := .io) (h _ (by simp [hr])))
  · exact congrArg some hlmax
  · rfl

/-! ### Every command -/

/-- Two states that agree on what a command reads have agreeing outcomes. -/
theorem exec_agree (i : Instr) (hread : ∀ sp ∈ mayRead i, SameSpace sp s s') (hsrc : s'.src = s.src)
    (hlmax : s'.lmax = s.lmax) : OutcomesAgree (mayWrite i) s s' (exec i s) (exec i s') := by
  have same : ∀ {sp}, sp ∈ mayRead i → SameSpace sp s s' := fun {sp} => hread sp
  cases i with
  | fadd a b | fsub a b | fmul a b => exact answer_agree hsrc _ _
  | fdiv a b | finv a => exact respondField_agree hsrc
  | pbuild b k => exact execPbuild_agree b k hsrc
  | peval x => exact execPeval_agree x (same (.head _)) hsrc
  | cclr | sclr | shclr | ioclr => exact respond_agree hsrc (by simp [mayWrite, SameSpace])
  | cpush b => exact execCpush_agree b (same (.head _)) hsrc
  | crd j => exact respondByte_agree hsrc (SameSpace.readByte_eq (l := .coef j.toNat) (same (.head _)))
  | split n k => exact execSplit_agree n k (same (.head _)) hsrc
  | spush b => exact execSpush_agree b (same (.head _)) hlmax hsrc
  | srd idx => exact respondByte_agree hsrc (SameSpace.readByte_eq (l := .sec idx.toNat) (same (.head _)))
  | combine => exact execCombine_agree (same (.head _)) hsrc
  | shdel j => exact execShdel_agree j (same (.head _)) hsrc
  | shid j => exact respondByte_agree hsrc (SameSpace.readByte_eq (l := .id j.toNat) (same (.head _)))
  | shlen j => exact respondLength_agree hsrc (SameSpace.slotLen_eq (same (.head _)) j.toNat)
  | shrd j idx => exact respondByte_agree hsrc (SameSpace.readByte_eq (l := .pay j.toNat idx.toNat) (same (.head _)))
  | enc j => exact execEnc_agree j (same (.head _)) hsrc
  | dec => exact execDec_agree (same (.head _)) (same (.tail _ (.head _))) hsrc
  | iopush b => exact execIopush_agree b (same (.head _)) hlmax hsrc
  | iord idx => exact respondByte_agree hsrc (SameSpace.readByte_eq (l := .io idx.toNat) (same (.head _)))
  | rdr r => exact respondLength_agree hsrc (register_eq_of_sameSpace hread hlmax)

/-- Settles O60: two runs of one command from states that agree on what it reads end alike. -/
theorem answersDependOnlyOnSpacesRead : Obligations.AnswersDependOnlyOnSpacesRead :=
  fun i _ _ t t' hread hsrc hlmax => exec_agree i hread hsrc hlmax t t'

end Sys2Proof.Machine
end

section
/-!
PROOFS. Every command ends, and what it does to the engine does not depend on the host's side: the channels, what the host will do
and what it has received (20_memory R53, R59).
-/

namespace Sys2Proof.Machine

variable {s t : State}

/-! ### Every command ends with a response -/

theorem respondByte_answers {b : Option Byte} : ∃ t, respondByte b s = .next t := by
  cases b <;> exact ⟨_, rfl⟩

theorem respondLength_answers {n : Option Nat} : ∃ t, respondLength n s = .next t := by
  cases n <;> exact ⟨_, rfl⟩

theorem respondField_answers {b : Option Byte} : ∃ t, respondField b s = .next t := by
  cases b <;> exact ⟨_, rfl⟩

theorem check_answers {p : Prop} [Decidable p] {e : Err} {o : Host.Outcome State Fault Refusal} (h : ∃ t, o = .next t) :
    ∃ t, (if p then raise e s else o) = .next t := by
  split
  · exact ⟨_, rfl⟩
  · exact h

/-- No command stops the machine: each passes its checks and responds, or raises an error (60_exceptions R202). -/
theorem exec_answers (i : Instr) (s : State) : ∃ t, exec i s = .next t := by
  cases i with
  | fadd a b | fsub a b | fmul a b => exact ⟨_, rfl⟩
  | fdiv a b | finv a => exact respondField_answers
  | cclr | sclr | shclr | ioclr => exact ⟨_, rfl⟩
  | crd j | srd idx | shid j | shrd j idx | iord idx => exact respondByte_answers
  | shlen j | rdr r => exact respondLength_answers
  | pbuild b k | peval x | cpush b | spush b | shdel j | iopush b => exact check_answers ⟨_, rfl⟩
  | split n k => exact check_answers (check_answers (check_answers ⟨_, rfl⟩))
  | combine =>
    refine check_answers (check_answers (check_answers ?_))
    cases weights (s.mem.sh.map Share.id) <;> exact ⟨_, rfl⟩
  | enc j =>
    simp only [exec, execEnc]
    cases readSlot s.mem.sh j.toNat <;> exact ⟨_, rfl⟩
  | dec =>
    simp only [exec, execDec]
    cases decodeShare s.mem.io with
    | none => exact ⟨_, rfl⟩
    | some x => exact check_answers ⟨_, rfl⟩

/-! ### The engine does not see the host's side -/

/-- The two states have the same engine and the same source; their channels and their hosts may differ. -/
def SameEngine (s q : State) : Prop := q.lmax = s.lmax ∧ q.mem = s.mem ∧ q.src = s.src

/-- The state after a command that left this memory and this source and answered `r`. -/
def State.ended (s : State) (m : Memory) (src : Source) (r : Word) : State :=
  { s with mem := m, src := src, cmd := none, rsp := some r }

theorem mem_eq_of_sameSpace (h : ∀ sp, SameSpace sp s t) : t.mem = s.mem := by
  have hsec : t.mem.sec = s.mem.sec := h .sec
  have hcoef : t.mem.coef = s.mem.coef := h .coef
  have hsh : t.mem.sh = s.mem.sh := h .sh
  have hio : t.mem.io = s.mem.io := h .io
  cases hs : s.mem
  cases ht : t.mem
  simp_all

/-- A space unchanged from two equal memories is equal after. -/
theorem SameSpace.of_unchanged {q u : State} {sp : Space} (hmem : q.mem = s.mem) (hs : SameSpace sp s t)
    (hq : SameSpace sp q u) : SameSpace sp t u := by
  cases sp <;> exact hq.trans ((congrArg _ hmem).trans hs.symm)

theorem exec_ended {i : Instr} (h : exec i s = .next t) : ∃ m src r, t = s.ended m src r := by
  rcases exec_next h with ⟨e, rfl⟩ | ⟨m, src, d, rfl⟩ <;> exact ⟨_, _, _, rfl⟩

/-- One command from two states with the same engine: the written spaces agree by non-interference, the others by the frame. -/
theorem exec_sameEngine {i : Instr} {q u : State} (heng : SameEngine s q) (hs : exec i s = .next t) (hq : exec i q = .next u) :
    u.rsp = t.rsp ∧ u.src = t.src ∧ u.mem = t.mem := by
  obtain ⟨hlmax, hmem, hsrc⟩ := heng
  obtain ⟨hrsp, hsrc', hwritten⟩ := exec_agree i (fun _ _ => sameSpace_of_mem_eq hmem) hsrc hlmax t u hs hq
  refine ⟨hrsp, hsrc', mem_eq_of_sameSpace fun sp => ?_⟩
  by_cases hsp : sp ∈ mayWrite i
  · rcases hwritten sp hsp with hsame | ⟨hts, huq⟩
    · exact hsame
    · exact .of_unchanged hmem hts huq
  · exact .of_unchanged hmem (exec_sameSpace hs hsp) (exec_sameSpace hq hsp)

/-- A word ends with a memory, a source and a response that are the same whatever the host's side is, and the host's side stands
(20_memory R54, R59). -/
theorem runWord_ended (w : Word) (s : State) :
    ∃ m src r, ∀ q, SameEngine s q → runWord w q = .next (q.ended m src r) := by
  rcases runWord_cases w s with ⟨i, hi, -⟩ | ⟨hi, -⟩
  · obtain ⟨t, ht⟩ := exec_answers i s
    obtain ⟨m, src, r, rfl⟩ := exec_ended ht
    refine ⟨m, src, r, fun q heng => ?_⟩
    obtain ⟨u, hu⟩ := exec_answers i q
    obtain ⟨m', src', r', rfl⟩ := exec_ended hu
    obtain ⟨hrsp, rfl, rfl⟩ := exec_sameEngine heng ht hu
    cases hrsp
    rw [runWord_of_decode hi, hu]
    rfl
  · refine ⟨s.mem, s.src, responseWord Err.illegalCommand.code 0, fun q heng => ?_⟩
    obtain ⟨-, hmem, hsrc⟩ := heng
    rcases runWord_cases w q with ⟨i, hi', -⟩ | ⟨-, hraise⟩
    · exact absurd hi' (hi i)
    · rw [hraise, ← hmem, ← hsrc]
      rfl

end Sys2Proof.Machine
end

section
/-!
PROOFS. The handshake (20_memory R59, 70_reset R226): one equation of `step` per state of it, and the refinement of the
commands run one after another by the words sent and awaited.
-/

namespace Sys2Proof.Machine

variable {s t : State} {w r : Word} {rest : List HostAct}

/-! ### One step of the handshake -/

/-- The state with the word accepted: it is in flight, and the host has `rest` left to do. -/
def State.accept (s : State) (w : Word) (rest : List HostAct) : State := { s with cmd := some w, todo := rest }

/-- The word is held while a response waits. -/
theorem step_send_of_rsp (hcmd : s.cmd = none) (hrsp : s.rsp = some r) (htodo : s.todo = .send w :: rest) :
    step s = .next (s.takeResponse r) := by
  rw [step_host hcmd (by simp [htodo])]
  simp [hostTurn, hrsp, htodo]

/-- The word is accepted by an engine that is ready. -/
theorem step_send_of_ready (hready : s.ready) (htodo : s.todo = .send w :: rest) :
    step s = .next (s.accept w rest) := by
  obtain ⟨hcmd, hrsp⟩ := hready
  rw [step_host hcmd (by simp [htodo])]
  simp [hostTurn, hrsp, htodo, State.accept]

/-- The host that waits takes the response. -/
theorem step_await_of_rsp (hcmd : s.cmd = none) (hrsp : s.rsp = some r) (htodo : s.todo = .await :: rest) :
    step s = .next { s.takeResponse r with todo := rest } := by
  rw [step_host hcmd (by simp [htodo])]
  simp [hostTurn, hrsp, htodo]

/-- Settles O14: the two turns of a host with a word to send, and the engine's turn, which ends the word and leaves the host's
side. -/
theorem oneCommandAtATime : Obligations.OneCommandAtATime := by
  refine ⟨fun s r w rest => step_send_of_rsp, fun s w rest => step_send_of_ready, fun s t w hcmd hreset hstep => ?_⟩
  obtain ⟨m, src, r, hrun⟩ := runWord_ended w s
  rw [step_engine hcmd hreset, hrun s ⟨rfl, rfl, rfl⟩] at hstep
  cases hstep
  exact ⟨rfl, rfl, rfl, r, rfl⟩

/-! ### Words sent and awaited -/

theorem run_succ {k : Nat} (h : step s = .next t) : Sys2Proof.core.run (k + 1) s = Sys2Proof.core.run k t := by
  have hcore : Sys2Proof.core.step s = .next t := h
  simp only [Host.Core.run, hcore]

/-- The state after a word was sent, run and its response taken: the host has `rest` left to do. -/
def State.served (s : State) (m : Memory) (src : Source) (r : Word) (rest : List HostAct) : State :=
  { (s.ended m src r).takeResponse r with todo := rest }

/-- A word sent and awaited takes three steps: it is accepted, it is run, and its response is taken. -/
theorem run_send_await {m : Memory} {src : Source} {k : Nat} (hready : s.ready) (htodo : s.todo = .send w :: .await :: rest)
    (hrun : ∀ q, SameEngine s q → runWord w q = .next (q.ended m src r)) :
    Sys2Proof.core.run (k + 3) s = Sys2Proof.core.run k (s.served m src r rest) := by
  have haccept : step s = .next (s.accept w (.await :: rest)) := step_send_of_ready hready htodo
  have hengine : step (s.accept w (.await :: rest)) = .next ((s.accept w (.await :: rest)).ended m src r) :=
    (step_engine rfl (by simp [State.accept])).trans (hrun _ ⟨rfl, rfl, rfl⟩)
  have htaken : step ((s.accept w (.await :: rest)).ended m src r) = .next (s.served m src r rest) :=
    step_await_of_rsp rfl rfl rfl
  exact (run_succ haccept).trans ((run_succ hengine).trans (run_succ htaken))

theorem runWords_cons {ws rs : List Word} {u : State} (h : runWord w s = .next t) (hrsp : t.rsp = some r)
    (hws : runWords ws { t with rsp := none } = some (u, rs)) : runWords (w :: ws) s = some (u, r :: rs) := by
  simp [runWords, h, hrsp, hws]

/-- The refinement by induction on the words, for a sequential run that carries any `taken` as the responses taken: what it does
is not the host's, so the two runs need not agree on them. -/
theorem run_send_await_each (ws : List Word) (rest : List HostAct) (taken : List Word) (s : State) (hready : s.ready)
    (htodo : s.todo = ws.flatMap (fun w => [.send w, .await]) ++ rest) :
    ∃ u rs, runWords ws { s with todo := rest, received := taken } = some (u, rs) ∧ rs.length = ws.length ∧
      Sys2Proof.core.run (3 * ws.length) s = .next { u with received := s.received ++ rs } := by
  induction ws generalizing s with
  | nil =>
    refine ⟨_, [], rfl, rfl, ?_⟩
    obtain rfl : s.todo = rest := htodo
    rw [List.append_nil]
    rfl
  | cons w ws ih =>
    obtain ⟨m, src, r, hrun⟩ := runWord_ended w s
    obtain ⟨u, rs, hwords, hlength, hsteps⟩ := ih (s.served m src r _) ⟨rfl, rfl⟩ rfl
    refine ⟨u, r :: rs, runWords_cons (hrun _ ⟨rfl, rfl, rfl⟩) rfl hwords, congrArg (· + 1) hlength, ?_⟩
    calc Sys2Proof.core.run (3 * ws.length + 3) s
      _ = Sys2Proof.core.run (3 * ws.length) (s.served m src r _) := run_send_await hready htodo hrun
      _ = .next { u with received := s.received ++ [r] ++ rs } := hsteps
      _ = .next { u with received := s.received ++ r :: rs } := by rw [List.append_assoc]; rfl

/-- Settles O15: by the induction on the words, the sequential run starting with the host's own responses. -/
theorem handshakeRefinesSequentialRun : Obligations.HandshakeRefinesSequentialRun :=
  fun ws rest s => run_send_await_each ws rest s.received s

end Sys2Proof.Machine
end

section
/-!
PROOFS. The decoder as a table: the opcode gives the format and the commands, the format gives the reserved bits and the operands'
fields (30_encoding R71 to R76, R84 to R86).
-/

namespace Sys2Proof

/-! ### The formats (30_encoding R71 to R76) -/

/-- A format, with the commands of one opcode by their operands. -/
inductive Format where
  | z (i : Instr)
  | a (mk : Byte → Instr)
  | ab (mk : Byte → Byte → Instr)
  | i (mk : Half → Instr)
  | ai (mk : Byte → Half → Instr)
  | nk (mk : Count12 → Count12 → Instr)

/-- The reserved bits of the format (30_encoding R86). -/
def Format.mask : Format → Word
  | .z _ => maskZ
  | .a _ => maskA
  | .ab _ => maskAB
  | .i _ => maskI
  | .ai _ => 0
  | .nk _ => 0

/-- The command whose operands are the fields of the word, whatever its opcode and reserved bits. -/
def Format.command (w : Word) : Format → Instr
  | .z j => j
  | .a mk => mk (aField w)
  | .ab mk => mk (aField w) (bField w)
  | .i mk => mk (idxField w)
  | .ai mk => mk (aField w) (idxField w)
  | .nk mk => mk (nField w) (kField w)

/-- The model's decoder of the format. -/
def Format.decode (w : Word) : Format → Decoded
  | .z j => decodeZ w j
  | .a mk => decodeA w mk
  | .ab mk => decodeAB w mk
  | .i mk => decodeI w mk
  | .ai mk => decodeAI w mk
  | .nk mk => decodeNK w mk

/-- The format of an opcode, none for a reserved one (30_encoding R84, R85). -/
def opcodeFormat : Nat → Option Format
  | 0x10 => some (.ab .fadd)
  | 0x11 => some (.ab .fsub)
  | 0x12 => some (.ab .fmul)
  | 0x13 => some (.ab .fdiv)
  | 0x14 => some (.a .finv)
  | 0x20 => some (.ab .pbuild)
  | 0x21 => some (.a .peval)
  | 0x22 => some (.z .cclr)
  | 0x23 => some (.a .cpush)
  | 0x24 => some (.a .crd)
  | 0x30 => some (.nk .split)
  | 0x31 => some (.z .sclr)
  | 0x32 => some (.a .spush)
  | 0x33 => some (.i .srd)
  | 0x40 => some (.z .combine)
  | 0x41 => some (.z .shclr)
  | 0x42 => some (.a .shdel)
  | 0x43 => some (.a .shid)
  | 0x44 => some (.a .shlen)
  | 0x45 => some (.ai .shrd)
  | 0x50 => some (.a .enc)
  | 0x51 => some (.z .dec)
  | 0x52 => some (.z .ioclr)
  | 0x53 => some (.a .iopush)
  | 0x54 => some (.i .iord)
  | 0x60 => some (.a .rdr)
  | _ => none

/-! ### The decoder is the table -/

variable {w : Word} {i : Instr} {f : Format}

theorem ifClear_eq_instr {mask : Word} {j : Instr} : ifClear w mask i = .instr j ↔ w &&& mask = 0 ∧ i = j := by
  unfold ifClear
  split
  case isTrue h => simp only [h, Decoded.instr.injEq, true_and]
  case isFalse h => simp only [h, reduceCtorEq, false_and]

theorem Format.decode_eq_ifClear (f : Format) (w : Word) : f.decode w = ifClear w f.mask (f.command w) := by
  have nothingReserved (j : Instr) : Decoded.instr j = ifClear w 0 j := by simp [ifClear]
  cases f with
  | z | a | ab | i => rfl
  | ai | nk => exact nothingReserved _

/-- The decoder looks the opcode up and decodes by its format; without one the opcode is reserved (30_encoding R84, R85). -/
theorem decode_eq_table (w : Word) :
    decode w = (opcodeFormat (opField w).toNat).elim (.reservedOpcode (opField w)) (Format.decode w) := by
  unfold decode
  generalize (opField w).toNat = n
  fun_cases opcodeFormat n
  case case27 => simp
  all_goals rfl

/-- A word is a command exactly when its opcode has a format and the format's reserved bits are clear (30_encoding R88). -/
theorem decode_eq_instr_iff :
    decode w = .instr i ↔ ∃ f, opcodeFormat (opField w).toNat = some f ∧ w &&& f.mask = 0 ∧ f.command w = i := by
  rw [decode_eq_table]
  cases opcodeFormat (opField w).toNat with
  | none => simp
  | some f => simp [Format.decode_eq_ifClear, ifClear_eq_instr]

/-- The reserved opcodes (30_encoding R85). -/
def ReservedOpcode (op : Nat) : Prop :=
  op ≤ 0x0F ∨ (0x15 ≤ op ∧ op ≤ 0x1F) ∨ (0x25 ≤ op ∧ op ≤ 0x2F) ∨ (0x34 ≤ op ∧ op ≤ 0x3F) ∨
    (0x46 ≤ op ∧ op ≤ 0x4F) ∨ (0x55 ≤ op ∧ op ≤ 0x5F) ∨ 0x61 ≤ op

theorem opcodeFormat_of_reserved {n : Nat} (h : ReservedOpcode n) : opcodeFormat n = none := by
  unfold ReservedOpcode at h
  fun_cases opcodeFormat n
  case case27 => simp
  all_goals omega

/-- 0x60 is the last opcode that has a format. -/
theorem opcodeFormat_lt {n : Nat} (h : opcodeFormat n = some f) : n < 0x61 := by
  by_contra hn
  have hnone : opcodeFormat n = none := opcodeFormat_of_reserved (by unfold ReservedOpcode; omega)
  simp [hnone] at h

end Sys2Proof
end

section
/-!
PROOFS. The decoder and the encoder are inverse, format by format, and the words of the commands as numbers.
-/

namespace Sys2Proof

variable {w : Word} {i : Instr} {f : Format} {op : Byte}

/-! ### Decoding the word of a command: an opcode with a format decodes what the format's encoder made -/

theorem decode_encodeZ (h : opcodeFormat op.toNat = some (.z i)) : decode (encodeZ op) = .instr i := by
  refine decode_eq_instr_iff.mpr ⟨.z i, ?_, (and_maskZ _).mpr ?_, rfl⟩
  · rw [Laws.TableRow.opField_encodeZ, h]
  · rw [encodeZ_toNat]; omega

theorem decode_encodeA {mk : Byte → Instr} (h : opcodeFormat op.toNat = some (.a mk)) (a : Byte) :
    decode (encodeA op a) = .instr (mk a) := by
  refine decode_eq_instr_iff.mpr ⟨.a mk, ?_, (and_maskA _).mpr ?_, congrArg mk (BitVec.eq_of_toNat_eq ?_)⟩
  · rw [Laws.TableRow.opField_encodeA, h]
  · rw [encodeA_toNat]; omega
  · rw [aField_toNat, encodeA_toNat]; omega

theorem decode_encodeAB {mk : Byte → Byte → Instr} (h : opcodeFormat op.toNat = some (.ab mk)) (a b : Byte) :
    decode (encodeAB op a b) = .instr (mk a b) := by
  refine decode_eq_instr_iff.mpr ⟨.ab mk, ?_, (and_maskAB _).mpr ?_,
    congrArg₂ mk (BitVec.eq_of_toNat_eq ?_) (BitVec.eq_of_toNat_eq ?_)⟩
  · rw [Laws.TableRow.opField_encodeAB, h]
  · rw [encodeAB_toNat]; omega
  · rw [aField_toNat, encodeAB_toNat]; omega
  · rw [bField_toNat, encodeAB_toNat]; omega

theorem decode_encodeI {mk : Half → Instr} (h : opcodeFormat op.toNat = some (.i mk)) (idx : Half) :
    decode (encodeI op idx) = .instr (mk idx) := by
  refine decode_eq_instr_iff.mpr ⟨.i mk, ?_, (and_maskI _).mpr ?_, congrArg mk (BitVec.eq_of_toNat_eq ?_)⟩
  · rw [Laws.TableRow.opField_encodeI, h]
  · rw [encodeI_toNat]; omega
  · rw [idxField_toNat, encodeI_toNat]; omega

theorem decode_encodeAI {mk : Byte → Half → Instr} (h : opcodeFormat op.toNat = some (.ai mk)) (a : Byte) (idx : Half) :
    decode (encodeAI op a idx) = .instr (mk a idx) := by
  refine decode_eq_instr_iff.mpr ⟨.ai mk, ?_, BitVec.and_zero,
    congrArg₂ mk (BitVec.eq_of_toNat_eq ?_) (BitVec.eq_of_toNat_eq ?_)⟩
  · rw [Laws.TableRow.opField_encodeAI, h]
  · rw [aField_toNat, encodeAI_toNat]; omega
  · rw [idxField_toNat, encodeAI_toNat]; omega

theorem decode_encodeNK {mk : Count12 → Count12 → Instr} (h : opcodeFormat op.toNat = some (.nk mk)) (n k : Count12) :
    decode (encodeNK op n k) = .instr (mk n k) := by
  refine decode_eq_instr_iff.mpr ⟨.nk mk, ?_, BitVec.and_zero,
    congrArg₂ mk (BitVec.eq_of_toNat_eq ?_) (BitVec.eq_of_toNat_eq ?_)⟩
  · rw [Laws.TableRow.opField_encodeNK, h]
  · rw [nField_toNat, encodeNK_toNat]; omega
  · rw [kField_toNat, encodeNK_toNat]; omega

/-- Settles O1: each command's opcode has the command's format, and a format's decoder gives back what its encoder put in. -/
theorem decodeOfEncodeIsTheCommand : Obligations.DecodeOfEncodeIsTheCommand := by
  intro i
  cases i with
  | cclr | sclr | combine | shclr | dec | ioclr => exact decode_encodeZ rfl
  | finv a | peval a | cpush a | crd a | spush a | shdel a | shid a | shlen a | enc a | iopush a | rdr a =>
    exact decode_encodeA rfl a
  | fadd a b | fsub a b | fmul a b | fdiv a b | pbuild a b => exact decode_encodeAB rfl a b
  | srd idx | iord idx => exact decode_encodeI rfl idx
  | shrd a idx => exact decode_encodeAI rfl a idx
  | split n k => exact decode_encodeNK rfl n k

/-! ### Encoding the command of a word -/

/-- The word with this opcode, the operand fields of `w` in the places of the format, and zeros elsewhere. -/
def Format.word (op : Byte) (w : Word) : Format → Word
  | .z _ => encodeZ op
  | .a _ => encodeA op (aField w)
  | .ab _ => encodeAB op (aField w) (bField w)
  | .i _ => encodeI op (idxField w)
  | .ai _ => encodeAI op (aField w) (idxField w)
  | .nk _ => encodeNK op (nField w) (kField w)

/-- The encoder puts an opcode's operands where the opcode's format has them. -/
theorem encode_command {n : Nat} (h : opcodeFormat n = some f) (w : Word) :
    encode (f.command w) = f.word (BitVec.ofNat 8 n) w := by
  revert h
  fun_cases opcodeFormat n
  case case27 => exact nofun
  all_goals rintro ⟨⟩; rfl

/-- A word whose reserved bits are clear is made of its opcode and its operand fields. -/
theorem Format.word_eq_self (h : w &&& f.mask = 0) : f.word (opField w) w = w := by
  apply BitVec.eq_of_toNat_eq
  cases f with
  | z =>
    have := (and_maskZ w).mp h
    rw [Format.word, encodeZ_toNat, opField_toNat]; omega
  | a =>
    have := (and_maskA w).mp h
    rw [Format.word, encodeA_toNat, opField_toNat, aField_toNat]; omega
  | ab =>
    have := (and_maskAB w).mp h
    rw [Format.word, encodeAB_toNat, opField_toNat, aField_toNat, bField_toNat]; omega
  | i =>
    have := (and_maskI w).mp h
    rw [Format.word, encodeI_toNat, opField_toNat, idxField_toNat]; omega
  | ai => rw [Format.word, encodeAI_toNat, opField_toNat, aField_toNat, idxField_toNat]; omega
  | nk => rw [Format.word, encodeNK_toNat, opField_toNat, nField_toNat, kField_toNat]; omega

/-- Settles O2: the encoder of the fields gives the word back where the reserved bits are clear. -/
theorem encodeOfDecodeIsTheWord : Obligations.EncodeOfDecodeIsTheWord := by
  intro w i h
  obtain ⟨f, hf, hclear, rfl⟩ := decode_eq_instr_iff.mp h
  calc encode (f.command w) = f.word (BitVec.ofNat 8 (opField w).toNat) w := encode_command hf w
    _ = f.word (opField w) w := by rw [BitVec.ofNat_toNat, BitVec.setWidth_eq]
    _ = w := Format.word_eq_self hclear

/-! ### Words as numbers -/

/-- Settles O3: every command's word is its format's, whose number is known. -/
theorem commandWordsByFormat : Obligations.CommandWordsByFormat := by
  refine ⟨?formatZ, ?formatA, ?formatAB, ?formatI, ?formatAI⟩
  case formatZ => simp [encode, encodeZ_toNat]
  case formatA => intro a; simp [encode, encodeA_toNat]
  case formatAB => intro a b; simp [encode, encodeAB_toNat]
  case formatI => intro idx; simp [encode, encodeI_toNat]
  case formatAI => intro a idx; simp [encode, encodeAI_toNat]

/-- Settles O8: each example is the word of the command the spec gives for it, so by O1 it decodes to that command. -/
theorem specExampleWordsDecode : Obligations.SpecExampleWordsDecode :=
  have decoded := decodeOfEncodeIsTheCommand
  ⟨decoded (.fmul 0x57 0x83), decoded (.finv 0x53), decoded (.pbuild 0x48 3), decoded (.split 5 3), decoded (.srd 1),
    decoded (.shrd 2 1), decoded .combine, decoded (.rdr 2)⟩

end Sys2Proof
end

section
/-!
PROOFS. The rows of the opcode table, and the words that are no command.
-/

namespace Sys2Proof

variable {w : Word} {f : Format}

/-! ### The opcode table as data -/

/-- The row of an opcode with its format: all its bits are fixed but the operands'. -/
def Format.row (op : Nat) (f : Format) : OpcodeRow :=
  ⟨(f.command 0).toLine.mnemonic, encodeZ (BitVec.ofNat 8 op), 0xFF000000 ||| f.mask⟩

/-- The 26 rows are those of the opcodes that have a format, in their order (30_encoding R84). -/
theorem opcodeRows_eq_table : opcodeRows = (List.range 0x61).filterMap fun op => (opcodeFormat op).map (Format.row op) :=
  rfl

theorem mem_opcodeRows {r : OpcodeRow} :
    r ∈ opcodeRows ↔ ∃ op < 0x61, ∃ f, opcodeFormat op = some f ∧ f.row op = r := by
  simp [opcodeRows_eq_table]

/-- The mask of the opcode keeps the opcode and clears the rest. -/
theorem and_opcodeMask (w : Word) : w &&& 0xFF000000 = encodeZ (opField w) := by
  have hw : w = opField w ++ w.extractLsb' 0 24 := by
    apply BitVec.eq_of_toNat_eq
    rw [append_toNat, opField_toNat, BitVec.extractLsb'_toNat, Nat.shiftRight_zero]
    omega
  have hmask : (0xFF000000 : Word) = BitVec.allOnes 8 ++ (0 : BitVec 24) := by decide
  calc w &&& 0xFF000000
    _ = (opField w ++ w.extractLsb' 0 24 : Word) &&& (BitVec.allOnes 8 ++ (0 : BitVec 24)) := by rw [← hw, hmask]
    _ = (opField w &&& BitVec.allOnes 8) ++ (w.extractLsb' 0 24 &&& (0 : BitVec 24)) := BitVec.and_append
    _ = encodeZ (opField w) := by rw [BitVec.and_allOnes, encodeZ]; exact congrArg _ BitVec.and_zero

theorem Format.mask_lt (f : Format) : f.mask.toNat < 2 ^ 24 := by
  cases f <;> simp [Format.mask, maskZ, maskA, maskAB, maskI]

/-- A word matches the row of a format exactly when it has the opcode and the reserved bits are clear. -/
theorem matches_row_iff {n : Nat} (hn : n < 0x61) :
    w &&& (f.row n).mask = (f.row n).pattern ↔ (opField w).toNat = n ∧ w &&& f.mask = 0 := by
  have hlow : (w &&& f.mask).toNat < 2 ^ 24 := by
    rw [BitVec.toNat_and]
    exact lt_of_le_of_lt Nat.and_le_right f.mask_lt
  have hfixed : (w &&& (0xFF000000 ||| f.mask)).toNat = (opField w).toNat * 2 ^ 24 + (w &&& f.mask).toNat := by
    rw [BitVec.and_or_distrib_left, and_opcodeMask, BitVec.toNat_or, encodeZ_toNat, ← Nat.shiftLeft_eq,
      ← Nat.shiftLeft_add_eq_or_of_lt hlow]
  have hpattern : (encodeZ (BitVec.ofNat 8 n)).toNat = n * 2 ^ 24 := by
    rw [encodeZ_toNat, BitVec.toNat_ofNat, Nat.mod_eq_of_lt (by omega)]
  have hzero : (0 : Word).toNat = 0 := rfl
  show w &&& (0xFF000000 ||| f.mask) = encodeZ (BitVec.ofNat 8 n) ↔ _
  rw [← BitVec.toNat_inj, ← BitVec.toNat_inj, hfixed, hpattern, hzero]
  omega

/-- Settles O4: the rows are those of the opcodes that have a format, and a word matches a row exactly when its opcode is the row's
and the reserved bits are clear. -/
theorem decoderAcceptsExactlyTheTable : Obligations.DecoderAcceptsExactlyTheTable := by
  constructor
  · intro w
    constructor
    · rintro ⟨i, h⟩
      obtain ⟨f, hf, hclear, -⟩ := decode_eq_instr_iff.mp h
      have hlt := opcodeFormat_lt hf
      exact ⟨_, mem_opcodeRows.mpr ⟨_, hlt, f, hf, rfl⟩, (matches_row_iff hlt).mpr ⟨rfl, hclear⟩⟩
    · rintro ⟨r, hr, hmatch⟩
      obtain ⟨op, hlt, f, hf, rfl⟩ := mem_opcodeRows.mp hr
      obtain ⟨rfl, hclear⟩ := (matches_row_iff hlt).mp hmatch
      exact ⟨f.command w, decode_eq_instr_iff.mpr ⟨f, hf, hclear, rfl⟩⟩
  · rw [opcodeRows_eq_table, List.pairwise_filterMap]
    refine List.pairwise_lt_range.imp_of_mem ?_
    intro m n hm hn hmn r hr q hq w ⟨hwr, hwq⟩
    obtain ⟨f, -, rfl⟩ := Option.map_eq_some_iff.mp hr
    obtain ⟨g, -, rfl⟩ := Option.map_eq_some_iff.mp hq
    obtain ⟨hopm, -⟩ := (matches_row_iff (List.mem_range.mp hm)).mp hwr
    obtain ⟨hopn, -⟩ := (matches_row_iff (List.mem_range.mp hn)).mp hwq
    omega

/-! ### Words that are no command -/

namespace Machine

theorem wordIllegal_of_opcodeFormat_none (h : opcodeFormat (w.toNat / 2 ^ 24) = none) : WordIllegal w := by
  refine wordIllegal_of_decode fun i hi => ?_
  obtain ⟨f, hf, -⟩ := decode_eq_instr_iff.mp hi
  rw [opField_toNat, h] at hf
  cases hf

/-- Settles O5: a reserved opcode has no format, so its words are no commands; the two named words have the first and the last. -/
theorem reservedOpcodesAreIllegal : Obligations.ReservedOpcodesAreIllegal := by
  have illegal (w : Word) (h : ReservedOpcode (w.toNat / 2 ^ 24)) : WordIllegal w :=
    wordIllegal_of_opcodeFormat_none (opcodeFormat_of_reserved h)
  exact ⟨illegal, illegal _ (by simp [ReservedOpcode]), illegal _ (by simp [ReservedOpcode])⟩

theorem reservedBitsIllegal_of_opcodeFormat {n : Nat} (h : opcodeFormat n = some f) : ReservedBitsIllegal n f.mask :=
  reservedBitsIllegal_of_ifClear (mk := fun w => f.command w) fun w hw => by
    rw [decode_eq_table, hw, h, Option.elim_some, Format.decode_eq_ifClear]

/-- Settles O6: the table gives each opcode its format, and the format its reserved bits; AI and NK have none. -/
theorem reservedBitsAreIllegal : Obligations.ReservedBitsAreIllegal := by
  have illegal {mask : Word} {ops : List Nat} (h : ∀ op ∈ ops, ∃ f, opcodeFormat op = some f ∧ f.mask = mask) :
      ∀ op ∈ ops, ReservedBitsIllegal op mask := by
    intro op hop
    obtain ⟨f, hf, rfl⟩ := h op hop
    exact reservedBitsIllegal_of_opcodeFormat hf
  refine ⟨illegal ?_, illegal ?_, illegal ?_, illegal ?_, ?_⟩
  · simp [opcodeFormat, Format.mask, maskZ]
  · simp [opcodeFormat, Format.mask, maskA]
  · simp [opcodeFormat, Format.mask, maskAB]
  · simp [opcodeFormat, Format.mask, maskI]
  · rintro w (hop | hop)
    · exact ⟨_, decode_eq_instr_iff.mpr ⟨.ai .shrd, by rw [opField_toNat, hop]; rfl, BitVec.and_zero, rfl⟩⟩
    · exact ⟨_, decode_eq_instr_iff.mpr ⟨.nk .split, by rw [opField_toNat, hop]; rfl, BitVec.and_zero, rfl⟩⟩

end Machine

end Sys2Proof
end

section
/-!
PROOFS. The assembler: printing and assembling are inverse, a pseudo-instruction expands to the lines of its commands, and what the
runs of expansions do.
-/

namespace Sys2Proof

/-! ### Lines (30_encoding R89) -/

@[simp] theorem operand_toNat {n : Nat} (b : BitVec n) : operand n b.toNat = b := by
  simp [operand]

/-- A command's mnemonic and operands give the command back. -/
theorem commandOf_toLine (i : Instr) : commandOf i.toLine.mnemonic i.toLine.operands = some i := by
  cases i <;> exact (rfl : _ = some _).trans (by simp only [operand_toNat])

theorem toInstr_toLine (i : Instr) : i.toLine.toInstr = some i :=
  (if_pos (wellFormed_all i)).trans (commandOf_toLine i)

/-- Each operand cut to its field. -/
def cutToFields (ops widths : List Nat) : List Nat := List.zipWith (fun v w => v % 2 ^ w) ops widths

theorem cutToFields_of_fit {ops widths : List Nat} (h : operandsFit ops widths = true) : cutToFields ops widths = ops := by
  fun_induction operandsFit ops widths with
  | case1 => rfl
  | case2 v vs w ws ih =>
    obtain ⟨hv, hvs⟩ := Bool.and_eq_true_iff.mp h
    exact congrArg₂ List.cons (Nat.mod_eq_of_lt (of_decide_eq_true hv)) (ih hvs)
  | case3 => cases h

/-- The command the assembler makes of a mnemonic and numbers prints as the mnemonic and the numbers cut to their fields. -/
theorem toLine_of_commandOf {name : String} {ops widths : List Nat} {i : Instr} (h : commandOf name ops = some i)
    (hw : operandWidths.lookup name = some widths) : i.toLine = ⟨name, cutToFields ops widths⟩ := by
  unfold commandOf at h
  split at h
  case h_27 => cases h
  all_goals cases h; cases hw; rfl

/-- A line is well-formed when its mnemonic has fields and its operands fit them. -/
theorem wellFormed_iff {l : Line} :
    l.wellFormed = true ↔ ∃ widths, operandWidths.lookup l.mnemonic = some widths ∧ operandsFit l.operands widths = true := by
  unfold Line.wellFormed
  cases operandWidths.lookup l.mnemonic <;> simp

/-- Settles O9: assembling cuts each operand to its field, which changes nothing in a well-formed line. -/
theorem assemblerInvertsPrinting : Obligations.AssemblerInvertsPrinting := by
  refine ⟨fun i => ⟨wellFormed_all i, toInstr_toLine i⟩, fun l i h => ?_⟩
  obtain ⟨hwf, hcommand⟩ := Option.ite_none_right_eq_some.mp h
  obtain ⟨widths, hwidths, hfit⟩ := wellFormed_iff.mp hwf
  rw [toLine_of_commandOf hcommand hwidths, cutToFields_of_fit hfit]

/-! ### Pseudo-instructions (30_encoding R90) -/

theorem linesToInstrs_toLine (is : List Instr) : linesToInstrs (is.map Instr.toLine) = some is := by
  induction is with
  | nil => rfl
  | cons i is ih => simp [linesToInstrs, toInstr_toLine, ih]

/-- A line whose expansion is the lines of some commands assembles to them. -/
theorem assembleLine_of_expandLine {l : Line} {is : List Instr} (h : expandLine l = some (is.map Instr.toLine)) :
    assembleLine l = some is := by
  rw [assembleLine, h, Option.bind_some, linesToInstrs_toLine]

namespace Machine

variable {s t : State} {i : Instr}

theorem runExpansion_of_succeeded (h : exec i s = .next t) (ht : t.succeeded = true) (is : List Instr) :
    runExpansion (i :: is) s = runExpansion is t := by
  simp [runExpansion, h, ht]

theorem runExpansion_of_failed (h : exec i s = .next t) (ht : t.succeeded = false) (is : List Instr) :
    runExpansion (i :: is) s = .next t := by
  simp [runExpansion, h, ht]

theorem errField_responseWord (e : Byte) (d : Half) : errField (responseWord e d) = e := by
  apply BitVec.eq_of_toNat_eq
  rw [errField, BitVec.extractLsb'_toNat, responseWord_toNat, Nat.shiftRight_eq_div_pow]
  omega

theorem succeeded_answer (d : Half) : (s.answer 0x00 d).succeeded = true :=
  beq_iff_eq.mpr (errField_responseWord 0x00 d)

/-- A run whose last command failed stopped there, so what follows is not run. -/
theorem runExpansion_append_of_failed (is js : List Instr) (s t : State) (h : runExpansion is s = .next t) (hne : is ≠ [])
    (ht : t.succeeded = false) : runExpansion (is ++ js) s = .next t := by
  induction is generalizing s with
  | nil => exact absurd rfl hne
  | cons i is ih =>
    obtain ⟨u, hu⟩ := exec_answers i s
    rw [List.cons_append]
    cases hsucceeded : u.succeeded with
    | false =>
      rw [runExpansion_of_failed hu hsucceeded] at h ⊢
      exact h
    | true =>
      rw [runExpansion_of_succeeded hu hsucceeded] at h ⊢
      refine ih u h fun hnil => ?_
      rw [hnil] at h
      cases h
      exact absurd (ht.symm.trans hsucceeded) Bool.false_ne_true

/-- SPUSH into a buffer with room appends the byte, after a success as before (46_buffer_access R174). -/
theorem exec_spush_answer {v : List Byte} {b : Byte} (h : v.length < s.lmax) :
    exec (.spush b) ((s.setSec v).answer 0x00 0) = .next ((s.setSec (v ++ [b])).answer 0x00 0) :=
  if_neg (ne_of_lt h)

/-- IOPUSH into a buffer with room appends the byte, after a success as before (46_buffer_access R182). -/
theorem exec_iopush_answer {v : List Byte} {b : Byte} (h : v.length < s.lmax + 1) :
    exec (.iopush b) ((s.setIo v).answer 0x00 0) = .next ((s.setIo (v ++ [b])).answer 0x00 0) :=
  if_neg (ne_of_lt h)

/-- Pushes that fit append their bytes, after a success as before. -/
theorem runExpansion_spush (bs v : List Byte) (h : v.length + bs.length ≤ s.lmax) :
    runExpansion (bs.map .spush) ((s.setSec v).answer 0x00 0) = .next ((s.setSec (v ++ bs)).answer 0x00 0) := by
  induction bs generalizing v with
  | nil => simp [runExpansion]
  | cons b bs ih =>
    rw [List.length_cons] at h
    have hpush : exec (.spush b) ((s.setSec v).answer 0x00 0) = .next ((s.setSec (v ++ [b])).answer 0x00 0) :=
      exec_spush_answer (by omega)
    have hrest := ih (v ++ [b]) (by rw [List.length_append, List.length_singleton]; omega)
    rw [List.map_cons, runExpansion_of_succeeded hpush (succeeded_answer 0), hrest, List.append_assoc, List.singleton_append]

/-- Settles O11: after the clear, the bytes pushed so far stand in the buffer, and there is room for the next. -/
theorem secretLoadsTheSecretBuffer : Obligations.SecretLoadsTheSecretBuffer := by
  intro bs s h
  have hclear : exec .sclr s = .next ((s.setSec []).answer 0x00 0) := rfl
  rw [runExpansion_of_succeeded hclear (succeeded_answer 0), runExpansion_spush bs [] (by simpa using h)]
  rfl

/-- `SHARE id` with no payload byte: the buffer holds the id alone when DEC runs (45_codec R161). -/
theorem runExpansion_share_of_empty (id : Byte) (s : State) : runExpansion [.ioclr, .iopush id, .dec] s =
    .next ((s.setIo [id]).answer Err.malformedShare.code 0) := by
  have hclear : exec .ioclr s = .next ((s.setIo []).answer 0x00 0) := rfl
  have hpush : exec (.iopush id) ((s.setIo []).answer 0x00 0) = .next ((s.setIo [id]).answer 0x00 0) :=
    exec_iopush_answer (Nat.succ_pos s.lmax)
  have hdec : exec .dec ((s.setIo [id]).answer 0x00 0) = .next ((s.setIo [id]).answer Err.malformedShare.code 0) := rfl
  rw [runExpansion_of_succeeded hclear (succeeded_answer 0), runExpansion_of_succeeded hpush (succeeded_answer 0),
    runExpansion_of_failed hdec rfl]

/-- Settles O10: each expansion is the lines of its commands, which assemble to them, and the run of `SHARE id` ends in the DEC. -/
theorem pseudoInstructionsExpand : Obligations.PseudoInstructionsExpand := by
  refine ⟨fun bs => ⟨assembleLine_of_expandLine ?secret, assembleLine_of_expandLine ?coefs,
      assembleLine_of_expandLine ?ioload⟩,
    fun id ps => assembleLine_of_expandLine ?share, runExpansion_append_of_failed, runExpansion_share_of_empty⟩
  all_goals simp [expandLine, pushLines, Instr.toLine]

end Machine
end Sys2Proof
end

section
/-!
PROOFS. A row of bits as a polynomial over GF(2), bit i being the coefficient of x^i (00_scope R8), and what the operations of the
multiplier do to it (40_field R102).
-/

namespace Sys2Proof.Machine

open Polynomial

variable {n m : Nat}

/-- The polynomial of a row of bits (00_scope R8). -/
noncomputable def bitPoly (c : BitVec n) : Polynomial (ZMod 2) :=
  ∑ i ∈ Finset.range n, if c.getLsbD i then X ^ i else 0

@[simp] theorem coeff_bitPoly (c : BitVec n) (i : Nat) : (bitPoly c).coeff i = if c.getLsbD i then 1 else 0 := by
  have hterm (j : Nat) : (if c.getLsbD j then X ^ j else 0 : Polynomial (ZMod 2)).coeff i =
      if i = j then if c.getLsbD j then 1 else 0 else 0 := by
    split <;> simp [coeff_X_pow]
  simp only [bitPoly, finsetSum_coeff, hterm, Finset.sum_ite_eq, Finset.mem_range]
  split
  · rfl
  · rw [BitVec.getLsbD_of_ge c i (by omega)]
    rfl

theorem bitPoly_injective : Function.Injective (bitPoly (n := n)) := by
  intro c d h
  refine BitVec.eq_of_getLsbD_eq fun i _ => ?_
  have hi : (bitPoly c).coeff i = (bitPoly d).coeff i := by rw [h]
  rw [coeff_bitPoly, coeff_bitPoly] at hi
  cases hc : c.getLsbD i <;> cases hd : d.getLsbD i <;> simp_all

theorem bitPoly_zero : bitPoly (0 : BitVec n) = 0 := by
  ext i
  simp

/-- Exclusive-or is addition of polynomials (40_field R100). -/
theorem bitPoly_xor (c d : BitVec n) : bitPoly (c ^^^ d) = bitPoly c + bitPoly d := by
  have htwo : (1 + 1 : ZMod 2) = 0 := by decide
  ext i
  rw [coeff_add, coeff_bitPoly, coeff_bitPoly, coeff_bitPoly, BitVec.getLsbD_xor]
  cases c.getLsbD i <;> cases d.getLsbD i <;> simp [htwo]

/-- A change of width that loses no bit keeps the polynomial. -/
theorem bitPoly_setWidth {c : BitVec n} (h : ∀ j, m ≤ j → c.getLsbD j = false) : bitPoly (c.setWidth m) = bitPoly c := by
  ext j
  rw [coeff_bitPoly, coeff_bitPoly, BitVec.getLsbD_setWidth]
  by_cases hj : j < m
  · simp [hj]
  · simp [hj, h j (by omega)]

/-- A shift by `k` that loses no bit is multiplication by x^k. -/
theorem bitPoly_shiftLeft {c : BitVec n} {k : Nat} (h : ∀ j, n ≤ j + k → c.getLsbD j = false) :
    bitPoly (c <<< k) = bitPoly c * X ^ k := by
  ext j
  rw [coeff_mul_X_pow', coeff_bitPoly, coeff_bitPoly, BitVec.getLsbD_shiftLeft]
  by_cases hk : k ≤ j
  · by_cases hj : j < n
    · simp [hk, hj]
    · simp [hj, h (j - k) (by omega)]
  · simp [hk, show j < k by omega]

/-- A row of `n` bits has degree below `n`. -/
theorem degree_bitPoly_lt (c : BitVec n) : (bitPoly c).degree < n := by
  rw [degree_lt_iff_coeff_zero]
  intro i hi
  rw [coeff_bitPoly, BitVec.getLsbD_of_ge c i hi]
  rfl

/-- A row of bits is its low bits and its top bit. -/
theorem bitPoly_succ (c : BitVec (n + 1)) :
    bitPoly c = bitPoly (c.setWidth n) + if c.getLsbD n then X ^ n else 0 := by
  rw [bitPoly, Finset.sum_range_succ, bitPoly]
  congr 1
  refine Finset.sum_congr rfl fun i hi => ?_
  rw [BitVec.getLsbD_setWidth, decide_eq_true (Finset.mem_range.mp hi), Bool.true_and]

/-- One step of the first loop adds the term of bit `i` of `b` times the polynomial of `a` (40_field R102). -/
theorem bitPoly_carrylessStep (a b : Byte) (c : BitVec 15) {i : Nat} (hi : i < 8) :
    bitPoly (if b.getLsbD i then c ^^^ (a.setWidth 15 <<< i) else c) =
      bitPoly c + bitPoly a * if b.getLsbD i then X ^ i else 0 := by
  have hwide : bitPoly (a.setWidth 15) = bitPoly a := bitPoly_setWidth fun j hj => BitVec.getLsbD_of_ge a j (by omega)
  have hshift : bitPoly (a.setWidth 15 <<< i) = bitPoly a * X ^ i := by
    rw [bitPoly_shiftLeft fun j hj => ?_, hwide]
    simp [BitVec.getLsbD_of_ge a j (by omega)]
  split
  · rw [bitPoly_xor, hshift]
  · simp

/-- The first loop of 40_field R102 multiplies polynomials. -/
theorem bitPoly_carrylessMul (a b : Byte) : bitPoly (carrylessMul a b) = bitPoly a * bitPoly b := by
  simp only [carrylessMul, List.foldl_cons, List.foldl_nil, bitPoly_carrylessStep, Nat.reduceLT, bitPoly_zero]
  simp only [bitPoly.eq_1 b, Finset.sum_range_succ, Finset.sum_range_zero]
  ring

end Sys2Proof.Machine
end

section
/-!
PROOFS. The multiplier and the reduction polynomial: bytes as residues modulo POLY, where `mul` is the product of residues
(40_field R102). Different bytes are different residues, so a law of the quotient ring is a law of the bytes.
-/

namespace Sys2Proof.Machine

open Polynomial

/-- POLY as a polynomial (00_scope R5). -/
noncomputable def modulus : Polynomial (ZMod 2) := X ^ 8 + X ^ 4 + X ^ 3 + X + 1

theorem modulus_monic : modulus.Monic := by
  unfold modulus
  monicity!

theorem modulus_degree : modulus.degree = 8 := by
  unfold modulus
  compute_degree!

theorem bitPoly_poly : bitPoly poly = modulus := by
  simp [bitPoly, poly, modulus, Finset.sum_range_succ]
  ring

/-- The residue of a row of bits modulo POLY. -/
noncomputable def residue {n : Nat} (c : BitVec n) : AdjoinRoot modulus := AdjoinRoot.mk modulus (bitPoly c)

theorem residue_xor {n : Nat} (c d : BitVec n) : residue (c ^^^ d) = residue c + residue d := by
  simp [residue, bitPoly_xor]

theorem residue_zero : residue (0 : Byte) = 0 := by
  rw [residue, bitPoly_zero, map_zero]

theorem residue_one : residue (1 : Byte) = 1 := by
  have h : bitPoly (1 : Byte) = 1 := by simp [bitPoly]
  rw [residue, h, map_one]

theorem poly_top : poly.getLsbD 8 = true := by decide

theorem poly_above {j : Nat} (hj : 9 ≤ j) : poly.getLsbD j = false := by
  have hlt : poly.toNat < 2 ^ 9 := by decide
  exact Nat.testBit_lt_two_pow (hlt.trans_le (Nat.pow_le_pow_right two_pos hj))

/-- A multiple of POLY has residue 0. -/
theorem residue_poly_shiftLeft {k : Nat} (hk : k ≤ 6) : residue (poly <<< k) = 0 := by
  rw [residue, bitPoly_shiftLeft fun j hj => poly_above (by omega), bitPoly_poly, map_mul, AdjoinRoot.mk_self, zero_mul]

/-! ### Reduction -/

/-- One step of the second loop of 40_field R102: clear bit `i` by a multiple of POLY. -/
def reduceStep (c : BitVec 15) (i : Nat) : BitVec 15 := if c.getLsbD i then c ^^^ (poly <<< (i - 8)) else c

/-- The loop of `reducePoly` goes from the top bit down. -/
theorem reducePoly_eq (c : BitVec 15) : reducePoly c = (((List.range' 8 7).reverse.foldl reduceStep c).setWidth 8) := rfl

theorem residue_reduceStep (c : BitVec 15) {i : Nat} (hi : i ≤ 14) : residue (reduceStep c i) = residue c := by
  unfold reduceStep
  split
  · rw [residue_xor, residue_poly_shiftLeft (by omega), add_zero]
  · rfl

/-- Where the bits above `i` are clear, the step clears bit `i` too: bit 8 is the top bit of POLY. -/
theorem reduceStep_clears {c : BitVec 15} {i : Nat} (hlo : 8 ≤ i) (hi : i ≤ 14) (hc : ∀ j, i < j → c.getLsbD j = false) :
    ∀ j, i ≤ j → (reduceStep c i).getLsbD j = false := by
  intro j hj
  unfold reduceStep
  split
  case isTrue hset =>
    rw [BitVec.getLsbD_xor, BitVec.getLsbD_shiftLeft]
    rcases hj.eq_or_lt with rfl | hlt
    · rw [hset, show i - (i - 8) = 8 by omega, poly_top]
      simp
      omega
    · rw [hc j hlt, poly_above (by omega), Bool.and_false, Bool.xor_false]
  case isFalse hclear =>
    rcases hj.eq_or_lt with rfl | hlt
    · simpa using hclear
    · exact hc j hlt

/-- The steps from bit 7+k down to bit 8 keep the residue and leave a byte. -/
theorem foldl_reduceStep {k : Nat} (hk : k ≤ 7) (c : BitVec 15) (hc : ∀ j, 8 + k ≤ j → c.getLsbD j = false) :
    residue ((List.range' 8 k).reverse.foldl reduceStep c) = residue c ∧
      ∀ j, 8 ≤ j → ((List.range' 8 k).reverse.foldl reduceStep c).getLsbD j = false := by
  induction k generalizing c with
  | zero => exact ⟨rfl, hc⟩
  | succ k ih =>
    have hbits := reduceStep_clears (i := 8 + k) (by omega) (by omega) fun j hj => hc j (by omega)
    obtain ⟨hres, hbyte⟩ := ih (by omega) (reduceStep c (8 + k)) hbits
    rw [List.range'_1_concat, List.reverse_append, List.reverse_singleton, List.singleton_append, List.foldl_cons]
    exact ⟨hres.trans (residue_reduceStep c (by omega)), hbyte⟩

theorem residue_reducePoly (c : BitVec 15) : residue (reducePoly c) = residue c := by
  obtain ⟨hres, hbyte⟩ := foldl_reduceStep (k := 7) le_rfl c fun j hj => BitVec.getLsbD_of_ge c j hj
  rw [reducePoly_eq, residue, bitPoly_setWidth hbyte]
  exact hres

/-- `mul` is the product of residues. -/
theorem residue_fieldMul (a b : Byte) : residue (fieldMul a b) = residue a * residue b := by
  rw [fieldMul, residue_reducePoly, residue, bitPoly_carrylessMul, map_mul]
  rfl

/-! ### A byte is its own remainder -/

/-- The polynomial of a byte has a lower degree than POLY. -/
theorem bitPoly_modByMonic (a : Byte) : bitPoly a %ₘ modulus = bitPoly a := by
  rw [modByMonic_eq_self_iff modulus_monic, modulus_degree]
  exact degree_bitPoly_lt a

theorem residue_eq_iff {n m : Nat} {c : BitVec n} {d : BitVec m} :
    residue c = residue d ↔ bitPoly c %ₘ modulus = bitPoly d %ₘ modulus := by
  rw [residue, residue, AdjoinRoot.mk_eq_mk, ← modByMonic_eq_zero_iff_dvd modulus_monic, sub_modByMonic, sub_eq_zero]

theorem residue_injective : Function.Injective (residue (n := 8)) := by
  intro a b h
  rw [residue_eq_iff, bitPoly_modByMonic, bitPoly_modByMonic] at h
  exact bitPoly_injective h

/-- Settles O36: `mul` has the residue of the carry-less product, whose polynomial is the product, and a byte is its own
remainder. -/
theorem multiplyIsThePolynomialRemainder : Obligations.MultiplyIsThePolynomialRemainder := by
  intro a b
  show bitPoly (fieldMul a b) = (bitPoly a * bitPoly b) %ₘ modulus
  calc bitPoly (fieldMul a b)
    _ = bitPoly (fieldMul a b) %ₘ modulus := (bitPoly_modByMonic _).symm
    _ = bitPoly (carrylessMul a b) %ₘ modulus := residue_eq_iff.mp (residue_reducePoly _)
    _ = (bitPoly a * bitPoly b) %ₘ modulus := by rw [bitPoly_carrylessMul]

end Sys2Proof.Machine
end

section
/-!
PROOFS. The shift-and-add form of `mul` (40_field R102), the powers of 0x03 and 0x02 (R113), and the field laws (R110), each read
off the residues modulo POLY.
-/

namespace Sys2Proof.Machine

open Polynomial

/-! ### Shift and add -/

/-- Multiplication by x, with the bit that falls out of the byte kept apart. -/
theorem residue_mul_root (r : Byte) : residue r * AdjoinRoot.root modulus =
    residue (r <<< 1) + if r.getLsbD 7 then AdjoinRoot.root modulus ^ 8 else 0 := by
  have hwide : bitPoly (r.setWidth 9) = bitPoly r := bitPoly_setWidth fun j hj => BitVec.getLsbD_of_ge r j (by omega)
  have hshift : bitPoly (r.setWidth 9 <<< 1) = bitPoly r * X := by
    rw [bitPoly_shiftLeft fun j hj => ?_, hwide, pow_one]
    simp [BitVec.getLsbD_of_ge r j (by omega)]
  have hlow : (r.setWidth 9 <<< 1).setWidth 8 = r <<< 1 := by
    ext i
    simp
  have htop : (r.setWidth 9 <<< 1).getLsbD 8 = r.getLsbD 7 := by simp
  rw [bitPoly_succ, hlow, htop] at hshift
  rw [residue, residue, ← AdjoinRoot.mk_X, ← map_mul, ← hshift, map_add, apply_ite (AdjoinRoot.mk modulus), map_pow,
    map_zero]

/-- The low bits of POLY are what x^8 is modulo POLY. -/
theorem residue_lowPoly : residue (0x1B : Byte) = AdjoinRoot.root modulus ^ 8 := by
  have hpoly : modulus = bitPoly (0x1B : Byte) + X ^ 8 := by
    simp [bitPoly, modulus, Finset.sum_range_succ]
    ring
  have hsum : residue (0x1B : Byte) + AdjoinRoot.root modulus ^ 8 = 0 := by
    rw [residue, ← AdjoinRoot.mk_X, ← map_pow, ← map_add, ← hpoly, AdjoinRoot.mk_self]
  have htwice : residue (0x1B : Byte) + residue (0x1B : Byte) = 0 := by
    rw [← residue_xor, BitVec.xor_self]
    exact residue_zero
  exact add_left_cancel (htwice.trans hsum.symm)

/-- Multiplication by x as the second pseudocode does it: shift, and add the low bits of POLY if a bit fell out. -/
theorem residue_shiftLeft_one (r : Byte) :
    residue ((r <<< 1) ^^^ (if r.getLsbD 7 then 0x1B else 0x00)) = residue r * AdjoinRoot.root modulus := by
  rw [residue_xor, residue_mul_root]
  split
  · rw [residue_lowPoly]
  · rw [residue_zero]

/-- One step of the second pseudocode: times x, and plus `a` if bit `i` of `b` is set. -/
theorem residue_shiftAddStep (a b r : Byte) (i : Nat) :
    residue (let d : Byte := (r <<< 1) ^^^ (if r.getLsbD 7 then 0x1B else 0x00); if b.getLsbD i then d ^^^ a else d) =
      residue r * AdjoinRoot.root modulus + residue a * if b.getLsbD i then 1 else 0 := by
  rw [← residue_shiftLeft_one]
  dsimp only
  split
  · rw [residue_xor, mul_one]
  · rw [mul_zero, add_zero]

/-- A byte's residue as a polynomial in the root of POLY. -/
theorem residue_eq_sum (b : Byte) :
    residue b = ∑ i ∈ Finset.range 8, (if b.getLsbD i then 1 else 0) * AdjoinRoot.root modulus ^ i := by
  simp only [residue, bitPoly, map_sum, apply_ite (AdjoinRoot.mk modulus), map_pow, AdjoinRoot.mk_X, map_zero,
    ite_mul, one_mul, zero_mul]

/-- Settles O37: both forms multiply residues; the second adds the terms of `b` from the top by Horner's rule. -/
theorem shiftAndAddEqualsMultiplyThenReduce : Obligations.ShiftAndAddEqualsMultiplyThenReduce := by
  intro a b
  apply residue_injective
  rw [residue_fieldMul, residue_eq_sum b]
  simp only [mulByShifts, List.foldl_cons, List.foldl_nil, residue_shiftAddStep, residue_zero,
    Finset.sum_range_succ, Finset.sum_range_zero]
  ring

/-! ### Powers -/

theorem residue_fieldPow (a : Byte) (n : Nat) : residue (fieldPow a n) = residue a ^ n := by
  induction n with
  | zero => rw [fieldPow, residue_one, pow_zero]
  | succ n ih => rw [fieldPow, residue_fieldMul, ih, pow_succ]

theorem residue_pow_eq_one_iff {a : Byte} {n : Nat} : residue a ^ n = 1 ↔ fieldPow a n = 1 := by
  rw [← residue_fieldPow, ← residue_one, residue_injective.eq_iff]

theorem fieldPow_mul (a : Byte) (m n : Nat) : fieldPow a (m * n) = fieldPow (fieldPow a m) n :=
  residue_injective (by rw [residue_fieldPow, residue_fieldPow, residue_fieldPow, pow_mul])

theorem fieldPow_three_mul_17 (n : Nat) : fieldPow 0x03 (17 * n) = fieldPow 0xE1 n := by
  have h : fieldPow 0x03 17 = 0xE1 := by decide +kernel
  rw [fieldPow_mul, h]

theorem fieldPow_two_mul_17 (n : Nat) : fieldPow 0x02 (17 * n) = fieldPow 0xBC n := by
  have h : fieldPow 0x02 17 = 0xBC := by decide +kernel
  rw [fieldPow_mul, h]

theorem fieldPow_three_255 : fieldPow 0x03 255 = 1 := (fieldPow_three_mul_17 15).trans (by decide +kernel)

theorem fieldPow_two_51 : fieldPow 0x02 51 = 1 := (fieldPow_two_mul_17 3).trans (by decide +kernel)

/-- 0x03 has order 255 = 3 · 5 · 17: its power 255 is 1, and no power by 255 over a prime divisor is. -/
theorem orderOf_residue_three : orderOf (residue (0x03 : Byte)) = 255 := by
  refine orderOf_eq_of_pow_and_pow_div_prime (by norm_num) (residue_pow_eq_one_iff.mpr fieldPow_three_255) fun p hp hdvd => ?_
  rw [show 255 = 3 * 5 * 17 by norm_num, hp.dvd_mul, hp.dvd_mul, Nat.prime_dvd_prime_iff_eq hp (by norm_num),
    Nat.prime_dvd_prime_iff_eq hp (by norm_num), Nat.prime_dvd_prime_iff_eq hp (by norm_num)] at hdvd
  rw [Ne, residue_pow_eq_one_iff]
  rcases hdvd with (rfl | rfl) | rfl
  · exact (fieldPow_three_mul_17 5).trans_ne (by decide +kernel)
  · exact (fieldPow_three_mul_17 3).trans_ne (by decide +kernel)
  · decide +kernel

/-- 0x02 has order 51 = 3 · 17 (40_field R113). -/
theorem orderOf_residue_two : orderOf (residue (0x02 : Byte)) = 51 := by
  refine orderOf_eq_of_pow_and_pow_div_prime (by norm_num) (residue_pow_eq_one_iff.mpr fieldPow_two_51) fun p hp hdvd => ?_
  rw [show 51 = 3 * 17 by norm_num, hp.dvd_mul, Nat.prime_dvd_prime_iff_eq hp (by norm_num),
    Nat.prime_dvd_prime_iff_eq hp (by norm_num)] at hdvd
  rw [Ne, residue_pow_eq_one_iff]
  rcases hdvd with rfl | rfl
  · exact (fieldPow_two_mul_17 1).trans_ne (by decide +kernel)
  · decide +kernel

theorem fieldPow_three_ne_zero (i : Nat) : fieldPow 0x03 i ≠ 0 := by
  intro h
  have hzero : residue (0x03 : Byte) ^ i = 0 := by rw [← residue_fieldPow, h, residue_zero]
  have hunit : residue (0x03 : Byte) ^ (i * 255) = 1 := by
    rw [mul_comm, pow_mul, residue_pow_eq_one_iff.mpr fieldPow_three_255, one_pow]
  rw [pow_mul, hzero, zero_pow (by norm_num), ← residue_zero, ← residue_one] at hunit
  exact absurd (residue_injective hunit) (by decide)

/-- The first 255 powers of 0x03 are different and not 0, and there are 255 non-zero bytes. -/
theorem exists_fieldPow_three {a : Byte} (ha : a ≠ 0) : ∃ i < 255, fieldPow 0x03 i = a := by
  have hinj : Set.InjOn (fieldPow 0x03) (Finset.range 255) := by
    intro i hi j hj h
    rw [Finset.coe_range, ← orderOf_residue_three] at hi hj
    exact pow_injOn_Iio_orderOf hi hj (by simpa only [residue_fieldPow] using congrArg residue h)
  have hcard : (Finset.univ.erase (0 : Byte)).card = 255 := by
    rw [Finset.card_erase_of_mem (Finset.mem_univ _), Finset.card_univ, ← FinEnum.card_eq_fintypeCard, FinEnum.card_bitVec]
    norm_num
  have himage : (Finset.range 255).image (fieldPow 0x03) = Finset.univ.erase 0 := by
    refine Finset.eq_of_subset_of_card_le (fun b hb => ?_) ?_
    · obtain ⟨i, -, rfl⟩ := Finset.mem_image.mp hb
      exact Finset.mem_erase.mpr ⟨fieldPow_three_ne_zero i, Finset.mem_univ _⟩
    · rw [Finset.card_image_of_injOn hinj, hcard, Finset.card_range]
  obtain ⟨i, hi, h⟩ := Finset.mem_image.mp (himage ▸ Finset.mem_erase.mpr ⟨ha, Finset.mem_univ a⟩)
  exact ⟨i, Finset.mem_range.mp hi, h⟩

/-- Settles O39: the residues of 0x03 and 0x02 have the orders 255 and 51, so exponents add modulo 255. -/
theorem threeGeneratesTheLogTables : Obligations.ThreeGeneratesTheLogTables := by
  refine ⟨fun a => exists_fieldPow_three, fieldPow_three_255, fun i j _ _ => residue_injective ?_, fieldPow_two_51,
    fun i hpos hlt => ?_⟩
  · rw [residue_fieldMul, residue_fieldPow, residue_fieldPow, residue_fieldPow, ← pow_add, ← orderOf_residue_three,
      pow_mod_orderOf]
  · rw [Ne, ← residue_pow_eq_one_iff]
    exact pow_ne_one_of_lt_orderOf hpos.ne' (orderOf_residue_two ▸ hlt)

/-! ### The field laws -/

theorem fieldMul_comm (a b : Byte) : fieldMul a b = fieldMul b a :=
  residue_injective (by rw [residue_fieldMul, residue_fieldMul, mul_comm])

theorem fieldMul_assoc (a b c : Byte) : fieldMul (fieldMul a b) c = fieldMul a (fieldMul b c) :=
  residue_injective (by simp only [residue_fieldMul, mul_assoc])

theorem fieldMul_one (a : Byte) : fieldMul a 1 = a :=
  residue_injective (by rw [residue_fieldMul, residue_one, mul_one])

theorem one_fieldMul (a : Byte) : fieldMul 1 a = a := (fieldMul_comm 1 a).trans (fieldMul_one a)

theorem fieldMul_zero (a : Byte) : fieldMul a 0 = 0 :=
  residue_injective (by rw [residue_fieldMul, residue_zero, mul_zero])

theorem zero_fieldMul (a : Byte) : fieldMul 0 a = 0 := (fieldMul_comm 0 a).trans (fieldMul_zero a)

theorem fieldMul_fieldAdd (a b c : Byte) : fieldMul a (fieldAdd b c) = fieldAdd (fieldMul a b) (fieldMul a c) :=
  residue_injective (by simp only [fieldAdd, residue_fieldMul, residue_xor, mul_add])

/-- The product of the squarings is the power 2 + 4 + ... + 2^n. -/
theorem residue_squareProduct (n : Nat) (a : Byte) : residue (squareProduct n a) = residue a ^ (2 ^ (n + 1) - 2) := by
  induction n generalizing a with
  | zero => rw [squareProduct, residue_one, zero_add, pow_one, Nat.sub_self, pow_zero]
  | succ n ih =>
    have hexp : 2 ^ (n + 1 + 1) - 2 = 2 + 2 * (2 ^ (n + 1) - 2) := by
      have : 2 ≤ 2 ^ (n + 1) := Nat.le_self_pow n.succ_ne_zero 2
      omega
    rw [squareProduct, residue_fieldMul, ih, residue_fieldMul, ← pow_two, ← pow_mul, ← pow_add, hexp]

/-- The Fermat product is the reference computation of 40_field R104. -/
theorem squareProduct_seven (a : Byte) : squareProduct 7 a = fieldPow a 254 :=
  residue_injective (by rw [residue_squareProduct, residue_fieldPow]; norm_num)

theorem fieldInv_of_ne_zero {a : Byte} (ha : a ≠ 0) : fieldInv a = some (fieldPow a 254) := by
  rw [fieldInv, if_neg ha, squareProduct_seven]

/-- A non-zero byte is a power of 0x03, so its power 255 is 1 (40_field R104). -/
theorem fieldMul_fieldPow_254 {a : Byte} (ha : a ≠ 0) : fieldMul a (fieldPow a 254) = 1 := by
  obtain ⟨i, -, rfl⟩ := exists_fieldPow_three ha
  apply residue_injective
  calc residue (fieldMul (fieldPow 0x03 i) (fieldPow (fieldPow 0x03 i) 254))
    _ = (residue (0x03 : Byte) ^ 255) ^ i := by
      rw [residue_fieldMul, residue_fieldPow _ 254, ← pow_succ', residue_fieldPow, ← pow_mul, mul_comm, pow_mul]
    _ = residue (1 : Byte) := by rw [residue_pow_eq_one_iff.mpr fieldPow_three_255, one_pow, residue_one]

theorem fieldMul_fieldMul_fieldPow_254 (a : Byte) {b : Byte} (hb : b ≠ 0) :
    fieldMul (fieldMul a b) (fieldPow b 254) = a := by
  rw [fieldMul_assoc, fieldMul_fieldPow_254 hb, fieldMul_one]

theorem eq_zero_of_fieldMul_eq_zero {a b : Byte} (h : fieldMul a b = 0) : a = 0 ∨ b = 0 := by
  refine or_iff_not_imp_right.mpr fun hb => ?_
  rw [← fieldMul_fieldMul_fieldPow_254 a hb, h, zero_fieldMul]

/-- The inverse is the one byte whose product with the operand is 1 (40_field R109). -/
theorem fieldInv_of_fieldMul_eq_one {a v : Byte} (h : fieldMul a v = 1) : fieldInv a = some v := by
  have ha : a ≠ 0 := by
    rintro rfl
    rw [zero_fieldMul] at h
    exact absurd h (by decide)
  have hv : v = fieldPow a 254 := by
    rw [← fieldMul_fieldMul_fieldPow_254 v ha, fieldMul_comm v, h, one_fieldMul]
  rw [fieldInv_of_ne_zero ha, hv]

theorem fieldDiv_of_ne_zero (a : Byte) {b : Byte} (hb : b ≠ 0) : fieldDiv a b = some (fieldMul a (fieldPow b 254)) := by
  rw [fieldDiv, fieldInv_of_ne_zero hb, Option.map_some]

/-- The quotient is the one byte whose product with the divisor is the dividend (40_field R108). -/
theorem fieldDiv_of_fieldMul_eq {a b v : Byte} (hb : b ≠ 0) (h : fieldMul v b = a) : fieldDiv a b = some v := by
  rw [fieldDiv_of_ne_zero a hb, ← h, fieldMul_fieldMul_fieldPow_254 v hb]

/-- Settles O38: addition is exclusive-or, and multiplication is the product of residues with the inverse by the power 254. -/
theorem fieldLaws : Obligations.FieldLaws := by
  refine ⟨fun a b c => ?_, fun a b c => ?_, fieldMul_fieldAdd, fun a ha => ?_, fun a b hb => ?_, fun a b => ?_⟩
  · exact ⟨BitVec.xor_comm a b, BitVec.xor_assoc a b c, BitVec.xor_zero, BitVec.xor_self, rfl⟩
  · exact ⟨fieldMul_comm a b, fieldMul_assoc a b c, fieldMul_one a, fieldMul_zero a⟩
  · exact ⟨_, fieldInv_of_ne_zero ha, fieldMul_fieldPow_254 ha⟩
  · exact fieldDiv_of_fieldMul_eq hb rfl
  · exact eq_zero_of_fieldMul_eq_zero

end Sys2Proof.Machine
end

section
/-!
PROOFS. The five commands of the Field unit: a byte is answered as it is, and what the byte is comes from the field laws
(40_field R105 to R109).
-/

namespace Sys2Proof.Machine

/-! ### Answers and words -/

/-- The state with a byte on the response channel is the state answered by its number (30_encoding R77). -/
theorem answer_zext16 (s : State) (v : Byte) : s.answer 0x00 (zext16 v) = s.answered (success v.toNat) := by
  have hv : (zext16 v).toNat = v.toNat := BitVec.toNat_setWidth_of_le (by norm_num)
  rw [State.answer, responseWord_success, hv, State.answered, success]

theorem responds_fadd (a b : Byte) (s : State) : Responds (.fadd a b) s (success (fieldAdd a b).toNat) :=
  congrArg Host.Outcome.next (answer_zext16 s _)

theorem responds_fmul (a b : Byte) (s : State) : Responds (.fmul a b) s (success (fieldMul a b).toNat) :=
  congrArg Host.Outcome.next (answer_zext16 s _)

theorem responds_fmul_of_eq {a b v : Byte} (h : fieldMul a b = v) (s : State) :
    Responds (.fmul a b) s (success v.toNat) := h ▸ responds_fmul a b s

theorem respondField_some {s : State} {o : Option Byte} {v : Byte} (h : o = some v) :
    respondField o s = .next (s.answered (success v.toNat)) := by
  rw [h]
  exact congrArg Host.Outcome.next (answer_zext16 s v)

theorem responds_fdiv {a b v : Byte} (h : fieldDiv a b = some v) (s : State) :
    Responds (.fdiv a b) s (success v.toNat) := respondField_some h

theorem responds_finv {a v : Byte} (h : fieldInv a = some v) (s : State) : Responds (.finv a) s (success v.toNat) :=
  respondField_some h

/-- Different bytes are different answers. -/
theorem success_byte_injective {a b : Byte} (h : success a.toNat = success b.toNat) : a = b := by
  have ha := a.isLt
  have hb := b.isLt
  have hnat := congrArg BitVec.toNat h
  rw [success, success, BitVec.toNat_ofNat, BitVec.toNat_ofNat, Nat.mod_eq_of_lt (by omega), Nat.mod_eq_of_lt (by omega)] at hnat
  exact BitVec.eq_of_toNat_eq hnat

/-- A command gives one response. -/
theorem responds_unique {i : Instr} {s : State} {r r' : Word} (h : Responds i s r) (h' : Responds i s r') : r = r' := by
  have hrsp := congrArg State.rsp (Host.Outcome.next.inj (h.symm.trans h'))
  exact Option.some.inj hrsp

/-- The engine runs a command from the number of its word (30_encoding R88). -/
theorem wordExecutes_of_encode {n : Nat} {i : Instr} (h : (encode i).toNat = n) : WordExecutes n i := by
  apply wordExecutes_of_decode
  rw [← h, BitVec.ofNat_toNat, BitVec.setWidth_eq]
  exact decodeOfEncodeIsTheCommand i

/-! ### The commands -/

/-- Settles O32: both answer the exclusive-or. -/
theorem addAndSubtractAreExclusiveOr : Obligations.AddAndSubtractAreExclusiveOr := by
  obtain ⟨-, -, hwords, -⟩ := commandWordsByFormat
  refine ⟨fun a b s => ?_, fun a s => ?_, fun a b => ?_, ?_, ?_⟩
  · have hadd : Responds (.fadd a b) s (success (a.toNat ^^^ b.toNat)) := by
      rw [← BitVec.toNat_xor]
      exact responds_fadd a b s
    have hcomm : exec (.fsub a b) s = exec (.fsub b a) s := by
      show execFsub a b s = execFsub b a s
      rw [execFsub, execFsub, fieldSub, fieldSub, BitVec.xor_comm]
    exact ⟨hadd, hadd, rfl, hcomm⟩
  · have hself := responds_fadd a a s
    have hzero := responds_fadd a 0 s
    rw [fieldAdd, BitVec.xor_self] at hself
    rw [fieldAdd, show a ^^^ 0 = a from BitVec.xor_zero] at hzero
    exact ⟨hself, hzero⟩
  · obtain ⟨hadd, hsub, -⟩ := hwords a b
    exact ⟨wordExecutes_of_encode hadd, wordExecutes_of_encode hsub⟩
  · exact reservedBitsIllegal_of_opcodeFormat (f := .ab .fadd) rfl
  · exact reservedBitsIllegal_of_opcodeFormat (f := .ab .fsub) rfl

/-- Settles O33: FMUL answers `mul`, which has no zero divisors. -/
theorem multiplyAnswersTheProduct : Obligations.MultiplyAnswersTheProduct := by
  obtain ⟨-, -, hwords, -⟩ := commandWordsByFormat
  refine ⟨responds_fmul, fun a s => ⟨?_, ?_, ?_⟩, fun s => ⟨?_, ?_⟩, fun a b s ha hb h => ?_, fun a b => ?_, ?_⟩
  · exact responds_fmul_of_eq (fieldMul_zero a) s
  · exact responds_fmul_of_eq (zero_fieldMul a) s
  · exact responds_fmul_of_eq (fieldMul_one a) s
  · exact responds_fmul_of_eq (v := 0x1B) (by decide) s
  · exact responds_fmul_of_eq (v := 0xC1) (by decide) s
  · have hzero : fieldMul a b = 0 := success_byte_injective (responds_unique (responds_fmul a b s) h)
    exact (eq_zero_of_fieldMul_eq_zero hzero).elim ha hb
  · obtain ⟨-, -, hmul, -⟩ := hwords a b
    exact wordExecutes_of_encode hmul
  · exact reservedBitsIllegal_of_opcodeFormat (f := .ab .fmul) rfl

/-- Settles O34: the quotient is the dividend times the power 254 of the divisor. -/
theorem divideAnswersTheQuotient : Obligations.DivideAnswersTheQuotient := by
  obtain ⟨-, -, hwords, -⟩ := commandWordsByFormat
  refine ⟨fun a b s hb => ?_, fun a s => ⟨rfl, ?_⟩, fun b s hb => ⟨?_, ?_⟩, fun a b => ?_, ?_⟩
  · refine ⟨_, fieldPow b 254, fieldMul_fieldPow_254 hb, rfl, ?_, ?_, responds_fdiv (fieldDiv_of_ne_zero a hb) s⟩
    · rw [fieldMul_assoc, fieldMul_comm _ b, fieldMul_fieldPow_254 hb, fieldMul_one]
    · rintro u rfl
      exact (fieldMul_fieldMul_fieldPow_254 u hb).symm
  · exact responds_fdiv (fieldDiv_of_fieldMul_eq (by decide) (fieldMul_one a)) s
  · exact responds_fdiv (fieldDiv_of_fieldMul_eq hb (zero_fieldMul b)) s
  · exact responds_fdiv (fieldDiv_of_fieldMul_eq hb (one_fieldMul b)) s
  · obtain ⟨-, -, -, hdiv, -⟩ := hwords a b
    exact wordExecutes_of_encode hdiv
  · exact reservedBitsIllegal_of_opcodeFormat (f := .ab .fdiv) rfl

/-- Settles O35: the inverse is the power 254, and the inverse of the inverse is the one byte whose product with it is 1. -/
theorem inverseAnswersTheOneInverse : Obligations.InverseAnswersTheOneInverse := by
  obtain ⟨-, hwords, -⟩ := commandWordsByFormat
  refine ⟨fun a s ha => ?_, fun s => ⟨rfl, ?_⟩, fun a => ?_, ?_⟩
  · have hinv : fieldMul a (fieldPow a 254) = 1 := fieldMul_fieldPow_254 ha
    refine ⟨_, hinv, fun u hu => ?_, rfl, responds_finv (fieldInv_of_ne_zero ha) s, responds_finv ?_ s⟩
    · exact Option.some.inj ((fieldInv_of_fieldMul_eq_one hu).symm.trans (fieldInv_of_ne_zero ha))
    · exact fieldInv_of_fieldMul_eq_one ((fieldMul_comm _ a).trans hinv)
  · exact responds_finv (fieldInv_of_fieldMul_eq_one (fieldMul_one 1)) s
  · obtain ⟨hinv, -⟩ := hwords a
    exact wordExecutes_of_encode hinv
  · exact reservedBitsIllegal_of_opcodeFormat (f := .a .finv) rfl

end Sys2Proof.Machine
end

section
/-!
PROOFS. Randomness: how far each command moves the source, and that a command which draws succeeds (41_randomness R121, R122).
-/

namespace Sys2Proof.Machine

variable {s t u : State} {i : Instr} {n k : Count12}

/-! ### The two commands that draw -/

theorem drawsOf_split_legal (hk : 2 ≤ k.toNat) (hkn : k.toNat ≤ n.toNat) (hn : n.toNat ≤ 255) :
    drawsOf (.split n k) s = s.slen * (k.toNat - 1) := if_pos ⟨hk, hkn, hn⟩

theorem drawsOf_split_illegal (h : ¬(2 ≤ k.toNat ∧ k.toNat ≤ n.toNat ∧ n.toNat ≤ 255)) : drawsOf (.split n k) s = 0 :=
  if_neg h

/-- A SPLIT with legal operands succeeds and writes the shares (43_splitter R140, R141). -/
theorem execSplit_legal (hk : 2 ≤ k.toNat) (hkn : k.toNat ≤ n.toNat) (hn : n.toNat ≤ 255) :
    execSplit n k s = .next ((((s.setSh (splitShares (splitPolys k.toNat s.mem.sec s.src).1 n.toNat)).setSec []).setSrc
      (s.src.after (s.slen * (k.toNat - 1)))).answer 0x00 0) := by
  obtain ⟨-, hsrc⟩ := splitPolys_length k.toNat s.mem.sec s.src
  rw [execSplit, if_neg (by omega), if_neg (by omega), if_neg (by omega), hsrc]
  rfl

/-! ### Every other command -/

theorem drawsOf_eq_zero (hp : ∀ b k, i ≠ .pbuild b k) (hs : ∀ n k, i ≠ .split n k) : drawsOf i s = 0 := by
  cases i with
  | pbuild b k => exact absurd rfl (hp b k)
  | split n k => exact absurd rfl (hs n k)
  | _ => rfl

theorem Writes.src_eq (hw : Writes s i u) (hp : ∀ b k, i ≠ .pbuild b k) (hs : ∀ n k, i ≠ .split n k) : u.src = s.src := by
  cases hw with
  | pbuild b k => exact absurd rfl (hp b k)
  | split n k => exact absurd rfl (hs n k)
  | _ => rfl

theorem exec_src_eq (h : exec i s = .next t) (hp : ∀ b k, i ≠ .pbuild b k) (hs : ∀ n k, i ≠ .split n k) :
    t.src = s.src := by
  rcases exec_writes h with ⟨e, d, rfl⟩ | ⟨u, hu, rfl⟩
  · rfl
  · exact hu.src_eq hp hs

/-! ### Every command -/

/-- `t` comes after `s` by `d` requests, and where there are any, it answers success with data 0. -/
def Drew (s t : State) (d : Nat) : Prop :=
  t.src = s.src.after d ∧ (d = 0 ∨ t.rsp = some (responseWord 0x00 0))

theorem drew_zero (h : t.src = s.src) : Drew s t 0 := ⟨h.trans s.src.after_zero.symm, .inl rfl⟩

theorem execPbuild_drew {b k : Byte} (h : execPbuild b k s = .next t) : Drew s t (drawsOf (.pbuild b k) s) := by
  rcases execPbuild_next h with ⟨hk, rfl⟩ | ⟨-, rfl⟩
  · have hdraws : drawsOf (.pbuild b k) s = 0 := by rw [drawsOf, hk]
    rw [hdraws]
    exact drew_zero rfl
  · exact ⟨rfl, .inr rfl⟩

theorem execSplit_drew (h : execSplit n k s = .next t) : Drew s t (drawsOf (.split n k) s) := by
  by_cases hlegal : 2 ≤ k.toNat ∧ k.toNat ≤ n.toNat ∧ n.toNat ≤ 255
  · obtain ⟨hk, hkn, hn⟩ := hlegal
    rw [execSplit_legal hk hkn hn] at h
    cases h
    rw [drawsOf_split_legal hk hkn hn]
    exact ⟨rfl, .inr rfl⟩
  · rw [drawsOf_split_illegal hlegal]
    rcases execSplit_next h with ⟨e, -, rfl⟩ | ⟨hk, hkn, hn, -⟩
    · exact drew_zero rfl
    · exact absurd ⟨hk, hkn, hn⟩ hlegal

theorem exec_drew (h : exec i s = .next t) : Drew s t (drawsOf i s) := by
  cases i with
  | pbuild b k => exact execPbuild_drew h
  | split n k => exact execSplit_drew h
  | _ => exact drew_zero (exec_src_eq h nofun nofun)

/-- Settles O43: a command that draws succeeds, so a response with an error code means that none was drawn. -/
theorem drawsAreExactlyCounted : Obligations.DrawsAreExactlyCounted := by
  refine ⟨fun i s t h => ?_, fun b k s => rfl, fun n k s => drawsOf_split_legal, fun i s t r h hr herr => ?_,
    fun i s => drawsOf_eq_zero⟩
  · obtain ⟨hsrc, -⟩ := exec_drew h
    exact hsrc
  · obtain ⟨-, hnone | hsuccess⟩ := exec_drew h
    · exact hnone
    · have hr0 : responseWord 0x00 0 = r := Option.some.inj (hsuccess.symm.trans hr)
      exact absurd (hr0 ▸ errField_responseWord 0x00 0) herr

end Sys2Proof.Machine
end

section
/-!
PROOFS. The Polynomial Engine: `evaluate` as a fold and as a sum, and its two commands (42_polynomial R131 to R133).
-/

namespace Sys2Proof.Machine

variable {s : State}

/-! ### Horner's method -/

/-- One step of Horner's method, also at the top, where the value so far is that of no coefficients, 0. -/
theorem evalPoly_step (c : Byte) (cs : List Byte) (x : Byte) :
    evalPoly (c :: cs) x = fieldAdd (fieldMul (evalPoly cs x) x) c := by
  cases cs with
  | nil =>
    show c = fieldAdd (fieldMul 0 x) c
    rw [zero_fieldMul]
    exact BitVec.zero_xor.symm
  | cons d ds => exact evalPoly_cons c d ds x

theorem evalPoly_eq_foldr (cs : List Byte) (x : Byte) :
    evalPoly cs x = cs.foldr (fun d y => fieldAdd (fieldMul y x) d) 0 := by
  induction cs with
  | nil => rfl
  | cons c cs ih => rw [evalPoly_step, ih, List.foldr_cons]

/-- With the coefficients listed from the top one down, `evaluate` is the loop of R131. -/
theorem evalPoly_reverse_append (c : Byte) (cs : List Byte) (x : Byte) :
    evalPoly (cs.reverse ++ [c]) x = cs.foldl (fun y d => fieldAdd (fieldMul y x) d) c := by
  have htop := evalPoly_eq_foldr [c] x
  rw [evalPoly_eq_foldr, List.foldr_append, ← htop, List.foldr_reverse]
  rfl

theorem evalPoly_cons_zero (c : Byte) (cs : List Byte) : evalPoly (c :: cs) 0 = c := by
  rw [evalPoly_step, fieldMul_zero]
  exact BitVec.zero_xor

theorem evalPoly_one (cs : List Byte) : evalPoly cs 1 = xorAll cs := by
  induction cs with
  | nil => rfl
  | cons c cs ih => rw [evalPoly_step, ih, fieldMul_one, fieldAdd, BitVec.xor_comm, xorAll]

/-! ### The power sum -/

theorem fieldAdd_fieldMul (a b c : Byte) : fieldMul (fieldAdd a b) c = fieldAdd (fieldMul a c) (fieldMul b c) := by
  rw [fieldMul_comm, fieldMul_fieldAdd, fieldMul_comm c a, fieldMul_comm c b]

theorem xorAll_map_fieldMul (bs : List Byte) (x : Byte) : xorAll (bs.map (fieldMul · x)) = fieldMul (xorAll bs) x := by
  induction bs with
  | nil => exact (zero_fieldMul x).symm
  | cons b bs ih =>
    rw [List.map_cons, xorAll, ih, xorAll]
    exact (fieldAdd_fieldMul b (xorAll bs) x).symm

/-- The constant term apart, every other term has a factor x. -/
theorem powerSum_cons (c : Byte) (cs : List Byte) (x : Byte) :
    powerSum (c :: cs) x = c ^^^ fieldMul (powerSum cs x) x := by
  have hterm : ∀ i ∈ List.range cs.length, fieldMul ((c :: cs).getD (i + 1) 0) (fieldPow x (i + 1)) =
      fieldMul (fieldMul (cs.getD i 0) (fieldPow x i)) x := fun i _ => (fieldMul_assoc _ _ x).symm
  rw [powerSum, powerSum, ← xorAll_map_fieldMul, List.length_cons, List.range_succ_eq_map, List.map_cons, xorAll, List.map_map,
    List.map_map]
  congr 1
  · exact fieldMul_one c
  · exact congrArg xorAll (List.map_congr_left hterm)

theorem evalPoly_eq_powerSum (cs : List Byte) (x : Byte) : evalPoly cs x = powerSum cs x := by
  induction cs with
  | nil => rfl
  | cons c cs ih => rw [evalPoly_step, ih, powerSum_cons, fieldAdd, BitVec.xor_comm]

/-- Settles O40: Horner's steps are a fold, and a step is what the power sum gains with a new constant term. -/
theorem hornerHasThePowerSumValue : Obligations.HornerHasThePowerSumValue := fun c cs x =>
  ⟨evalPoly_reverse_append c cs x, evalPoly_eq_powerSum _ x, rfl, evalPoly_cons_zero c cs, evalPoly_one _⟩

/-! ### The two commands -/

theorem toNat_pos_of_ne_zero {k : Byte} (hk : k ≠ 0) : 0 < k.toNat :=
  Nat.pos_of_ne_zero fun h => hk (BitVec.eq_of_toNat_eq h)

/-- PBUILD of at least one coefficient succeeds and writes the polynomial (42_polynomial R130, R132). -/
theorem exec_pbuild_legal (b : Byte) {k : Byte} (hk : k ≠ 0) (s : State) : exec (.pbuild b k) s =
    .next (((s.setCoef (b :: (List.range (k.toNat - 1)).map s.src.answer)).setSrc (s.src.after (k.toNat - 1))).answer 0x00 0) := by
  show execPbuild b k s = _
  rw [execPbuild, if_neg (toNat_pos_of_ne_zero hk).ne', buildPoly_eq]
  rfl

theorem responds_peval (x : Byte) (h : s.clen ≠ 0) : Responds (.peval x) s (success (evalPoly s.mem.coef x).toNat) := by
  show execPeval x s = _
  rw [execPeval, if_neg h, ← answer_zext16]
  rfl

theorem responds_peval_of_eq {x v : Byte} (h : s.clen ≠ 0) (hv : evalPoly s.mem.coef x = v) :
    Responds (.peval x) s (success v.toNat) := hv ▸ responds_peval x h

/-- PEVAL of an empty buffer is InvalidThreshold (42_polynomial R133). -/
theorem responds_peval_empty (x : Byte) (h : s.clen = 0) : Responds (.peval x) s 0x01000000 := by
  show execPeval x s = _
  rw [execPeval, if_pos h]
  rfl

/-- Settles O41: `build` gives the constant term and the next answers, one per coefficient above it. -/
theorem buildFillsTheCoefficientBuffer : Obligations.BuildFillsTheCoefficientBuffer := by
  obtain ⟨-, -, hwords, -⟩ := commandWordsByFormat
  refine ⟨fun b k s hk => exec_pbuild_legal b hk s, fun b k s t h hk => ?_, fun b s => rfl, fun b k => ?_, ?_⟩
  · rw [exec_pbuild_legal b hk] at h
    cases h
    show (b :: (List.range (k.toNat - 1)).map s.src.answer).length = k.toNat
    rw [List.length_cons, List.length_map, List.length_range, Nat.sub_add_cancel (toNat_pos_of_ne_zero hk)]
  · obtain ⟨-, -, -, -, hpbuild⟩ := hwords b k
    exact wordExecutes_of_encode hpbuild
  · exact reservedBitsIllegal_of_opcodeFormat (f := .ab .pbuild) rfl

/-- Settles O42: PEVAL answers `evaluate` of the buffer, whose values O40 gives. -/
theorem evaluateAnswersTheValue : Obligations.EvaluateAnswersTheValue := by
  obtain ⟨-, hwords, -⟩ := commandWordsByFormat
  refine ⟨fun x s h => ?_, fun c cs s hcoef => ?_, fun x s => responds_peval_empty x, fun x => ?_, ?_⟩
  · exact responds_peval_of_eq h (evalPoly_eq_powerSum _ x)
  · have hclen : s.clen ≠ 0 := by simp [State.clen, hcoef]
    refine ⟨responds_peval_of_eq hclen ?_, responds_peval_of_eq hclen ?_, fun hcs x => responds_peval_of_eq hclen ?_⟩
    · rw [hcoef, evalPoly_cons_zero]
    · rw [hcoef, evalPoly_one]
    · rw [hcoef, hcs, evalPoly]
  · obtain ⟨-, hpeval, -⟩ := hwords x
    exact wordExecutes_of_encode hpeval
  · exact reservedBitsIllegal_of_opcodeFormat (f := .a .peval) rfl

end Sys2Proof.Machine
end

section
/-!
PROOFS. The Splitter: the polynomials SPLIT builds are those of the answers in order, and what a slot of the store it leaves holds
(43_splitter R140 to R143).
-/

namespace Sys2Proof.Machine

variable {s : State} {n k : Count12}

/-! ### The polynomials -/

/-- The constant term is the secret byte, and the K-1 coefficients above it are answers in a row (43_splitter R141). -/
theorem splitPoly_eq_cons {k : Nat} (hk : 0 < k) (s : State) (p : Nat) : splitPoly s k p =
    s.mem.sec.getD p 0 :: (List.range (k - 1)).map fun i => s.src.answer (p * (k - 1) + i) := by
  obtain ⟨m, rfl⟩ := Nat.exists_eq_add_one.mpr hk
  rw [splitPoly, List.range_succ_eq_map, List.map_cons, List.map_map]
  rfl

/-- The positions above the first are the positions of the rest of the secret, with the K-1 answers of the first drawn. -/
theorem splitPoly_succ {k : Nat} (hk : 0 < k) {b : Byte} {bs : List Byte} (hsec : s.mem.sec = b :: bs) (p : Nat) :
    splitPoly s k (p + 1) = splitPoly ((s.setSec bs).setSrc (s.src.after (k - 1))) k p := by
  have hanswer : ∀ i, s.src.answer ((p + 1) * (k - 1) + i) = (s.src.after (k - 1)).answer (p * (k - 1) + i) := by
    intro i
    rw [Source.answer_after]
    congr 1
    ring
  simp only [splitPoly_eq_cons hk, hsec, hanswer, List.getD_cons_succ, setSrc_mem, setSrc_src, setSec_sec]

/-- SPLIT draws position by position, so the answers used at position p are those from p·(K-1) on (41_randomness R122). -/
theorem splitPolys_eq_map {k : Nat} (hk : 0 < k) {bs : List Byte} (hsec : s.mem.sec = bs) :
    (splitPolys k bs s.src).1 = (List.range bs.length).map (splitPoly s k) := by
  induction bs generalizing s with
  | nil => rfl
  | cons b bs ih =>
    have hhead : splitPoly s k 0 = b :: (List.range (k - 1)).map s.src.answer := by
      simp [splitPoly_eq_cons hk, hsec]
    have htail := ih (s := (s.setSec bs).setSrc (s.src.after (k - 1))) rfl
    rw [splitPolys, buildPoly_eq, List.length_cons, List.range_succ_eq_map, List.map_cons, List.map_map, hhead]
    exact congrArg _ (htail.trans (List.map_congr_left fun p _ => (splitPoly_succ hk hsec p).symm))

/-- The constant terms are the secret. -/
theorem splitPoly_head? {k : Nat} (hk : 0 < k) {p : Nat} (hp : p < s.slen) :
    (splitPoly s k p).head? = s.readByte (.sec p) := by
  have hcell : s.mem.sec[p]? = some s.mem.sec[p] := List.getElem?_eq_getElem hp
  rw [splitPoly_eq_cons hk, List.head?_cons, List.getD_eq_getElem?_getD, State.readByte, readCell, hcell, Option.getD_some]

/-! ### The slots -/

theorem readSlot_splitShares (polys : List (List Byte)) {n j : Nat} (hj : j < n) :
    readSlot (splitShares polys n) j = some (splitShare polys j) := by
  rw [readSlot, splitShares, List.getElem?_map, List.getElem?_range hj, Option.map_some]

/-- A payload has one byte per polynomial: its value at the share's id. -/
theorem readCell_splitShare {c : Nat → List Byte} {L p : Nat} (j : Nat) (hp : p < L) :
    readCell (splitShare ((List.range L).map c) j).pay p = some (evalPoly (c p) (shareId j)) := by
  rw [readCell, splitShare, List.map_map, List.getElem?_map, List.getElem?_range hp, Option.map_some, Function.comp_apply]

/-- What can be read of an occupied slot: its id, its length and its payload bytes. -/
theorem reads_of_readSlot {j : Nat} {x : Share} (h : readSlot s.mem.sh j = some x) :
    s.readByte (.id j) = some x.id ∧ s.slotLen j = some x.pay.length ∧ ∀ p, s.readByte (.pay j p) = readCell x.pay p := by
  simp [State.readByte, State.slotLen, h]

/-- Slot j of a store of N shares of these polynomials (43_splitter R142). -/
theorem reads_of_splitShares {c : Nat → List Byte} {L n j : Nat}
    (hsh : s.mem.sh = splitShares ((List.range L).map c) n) (hj : j < n) :
    s.readByte (.id j) = some (shareId j) ∧ s.slotLen j = some L ∧
      ∀ p < L, s.readByte (.pay j p) = some (evalPoly (c p) (shareId j)) := by
  have hslot : readSlot s.mem.sh j = some (splitShare ((List.range L).map c) j) := by rw [hsh, readSlot_splitShares _ hj]
  obtain ⟨hid, hlen, hpay⟩ := reads_of_readSlot hslot
  refine ⟨hid, ?_, fun p hp => (hpay p).trans (readCell_splitShare j hp)⟩
  rw [hlen, splitShare, List.length_map, List.length_map, List.length_range]

/-! ### The three failures, in their order (43_splitter R140) -/

theorem responds_split_invalidThreshold (hk : k.toNat < 2) : Responds (.split n k) s 0x01000000 := by
  show execSplit n k s = _
  rw [execSplit, if_pos hk]
  rfl

theorem responds_split_invalidShareCount (hk : 2 ≤ k.toNat) (hn : n.toNat < k.toNat) :
    Responds (.split n k) s 0x02000000 := by
  show execSplit n k s = _
  rw [execSplit, if_neg hk.not_gt, if_pos hn]
  rfl

theorem responds_split_shareCountOverflow (hk : 2 ≤ k.toNat) (hkn : k.toNat ≤ n.toNat) (hn : 255 < n.toNat) :
    Responds (.split n k) s 0x03000000 := by
  show execSplit n k s = _
  rw [execSplit, if_neg hk.not_gt, if_neg hkn.not_gt, if_pos hn]
  rfl

/-! ### The command -/

/-- Settles O44: the store is the shares of the polynomials of the answers in order, read slot by slot. -/
theorem splitWritesSharesInOrder : Obligations.SplitWritesSharesInOrder := by
  refine ⟨fun n k s hk hkn hn => ?_, fun n k s => responds_split_invalidThreshold,
    fun n k s => responds_split_invalidShareCount, fun n k s => responds_split_shareCountOverflow, fun n k => ?_⟩
  · have hpos : 0 < k.toNat := Nat.zero_lt_of_lt hk
    have hpolys : (splitPolys k.toNat s.mem.sec s.src).1 = (List.range s.slen).map (splitPoly s k.toNat) :=
      splitPolys_eq_map hpos rfl
    refine ⟨_, execSplit_legal hk hkn hn, rfl, rfl, ?_, rfl, fun j hj => reads_of_splitShares ?_ hj,
      fun p => splitPoly_head? hpos, rfl, rfl, rfl, rfl, rfl, rfl⟩
    · simp [State.scnt, splitShares]
    · exact congrArg (splitShares · n.toNat) hpolys
  · exact wordExecutes_of_encode (encodeNK_toNat 0x30 n k)

/-! ### The empty secret -/

theorem setSec_of_sec_eq {v : List Byte} (h : s.mem.sec = v) : s.setSec v = s := by
  rw [← h]
  rfl

/-- A legal split of the empty secret draws nothing and leaves shares without a payload (43_splitter R143). -/
theorem execSplit_of_sec_nil (hsec : s.mem.sec = []) (hk : 2 ≤ k.toNat) (hkn : k.toNat ≤ n.toNat) (hn : n.toNat ≤ 255) :
    execSplit n k s = .next ((s.setSh (splitShares [] n.toNat)).answer 0x00 0) := by
  have hsame := setSec_of_sec_eq (s := s.setSh (splitShares [] n.toNat)) hsec
  rw [execSplit_legal hk hkn hn, State.slen, hsec, splitPolys, List.length_nil, Nat.zero_mul, Source.after_zero, hsame]
  rfl

/-- The encoding of a share without a payload is one byte, which is no encoded share (45_codec R161). -/
theorem enc_empty_then_dec {j : Byte} (h : s.slotLen j.toNat = some 0) :
    ∃ t, exec (.enc j) s = .next t ∧ t.iolen = 1 ∧ Responds .dec t 0x08000000 := by
  obtain ⟨⟨id, pay⟩, hslot, hlen⟩ := Option.map_eq_some_iff.mp h
  obtain rfl : pay = [] := List.eq_nil_of_length_eq_zero hlen
  refine ⟨(s.setIo [id]).answer 0x00 0, ?_, rfl, rfl⟩
  show execEnc j s = _
  rw [execEnc, hslot]
  rfl

/-- Settles O45: there is no polynomial to build, so nothing is drawn and every payload is empty. -/
theorem emptySecretSplits : Obligations.EmptySecretSplits :=
  ⟨fun _ _ _ => execSplit_of_sec_nil, fun _ _ => responds_split_invalidThreshold (by decide), fun _ _ => enc_empty_then_dec⟩

end Sys2Proof.Machine
end

section
/-!
PROOFS. The field of residues modulo POLY: every residue is a byte's, so POLY has no proper divisors; and what sums, products and
quotients of bytes are in that field (40_field R110, 44_combiner R150).
-/

namespace Sys2Proof.Machine

open Polynomial

/-! ### Residues of lists and of quotients -/

theorem residue_xorAll (bs : List Byte) : residue (xorAll bs) = (bs.map residue).sum := by
  induction bs with
  | nil => exact residue_zero
  | cons b bs ih => rw [xorAll, residue_xor, ih, List.map_cons, List.sum_cons]

theorem residue_prodAll (bs : List Byte) : residue (prodAll bs) = (bs.map residue).prod := by
  induction bs with
  | nil => exact residue_one
  | cons b bs ih => rw [prodAll, residue_fieldMul, ih, List.map_cons, List.prod_cons]

theorem xorAll_perm {bs cs : List Byte} (h : bs.Perm cs) : xorAll bs = xorAll cs :=
  residue_injective (by rw [residue_xorAll, residue_xorAll, (h.map residue).sum_eq])

theorem prodAll_perm {bs cs : List Byte} (h : bs.Perm cs) : prodAll bs = prodAll cs :=
  residue_injective (by rw [residue_prodAll, residue_prodAll, (h.map residue).prod_eq])

theorem prodAll_ne_zero {bs : List Byte} (h : ∀ b ∈ bs, b ≠ 0) : prodAll bs ≠ 0 := by
  induction bs with
  | nil => decide
  | cons b bs ih =>
    obtain ⟨hb, hbs⟩ := List.forall_mem_cons.mp h
    exact fun h0 => (eq_zero_of_fieldMul_eq_zero h0).elim hb (ih hbs)

/-- Subtraction is exclusive-or (40_field R101). -/
theorem residue_xor_eq_sub (a b : Byte) : residue (a ^^^ b) = residue a - residue b := by
  rw [eq_sub_iff_add_eq, ← residue_xor, BitVec.xor_assoc, BitVec.xor_self]
  exact congrArg residue BitVec.xor_zero

theorem xor_ne_zero {a b : Byte} (h : a ≠ b) : a ^^^ b ≠ 0 := fun h0 => h (BitVec.xor_eq_zero_iff.mp h0)

/-! ### The residues are a field -/

/-- The residues of bytes are closed under sums and under multiplication by x, so they are all the residues. -/
theorem exists_residue_eq_mk (p : Polynomial (ZMod 2)) : ∃ b : Byte, residue b = AdjoinRoot.mk modulus p := by
  induction p using Polynomial.induction_on with
  | C a =>
    obtain rfl | rfl : a = 0 ∨ a = 1 := by revert a; decide
    · exact ⟨0, by rw [residue_zero, map_zero, map_zero]⟩
    · exact ⟨1, by rw [residue_one, map_one, map_one]⟩
  | add p q hp hq =>
    obtain ⟨a, ha⟩ := hp
    obtain ⟨b, hb⟩ := hq
    exact ⟨a ^^^ b, by rw [residue_xor, ha, hb, map_add]⟩
  | monomial n c h =>
    obtain ⟨b, hb⟩ := h
    exact ⟨_, by rw [residue_shiftLeft_one, hb, ← AdjoinRoot.mk_X, ← map_mul, mul_assoc, ← pow_succ]⟩

/-- POLY is irreducible: a product of bytes is 0 only if one of them is. -/
theorem modulus_irreducible : Irreducible modulus := by
  refine Prime.irreducible ⟨modulus_monic.ne_zero, ?_, fun p q h => ?_⟩
  · intro hunit
    have hdegree := degree_eq_zero_of_isUnit hunit
    rw [modulus_degree] at hdegree
    exact absurd hdegree (by decide)
  · obtain ⟨a, ha⟩ := exists_residue_eq_mk p
    obtain ⟨b, hb⟩ := exists_residue_eq_mk q
    have hzero : fieldMul a b = 0 := residue_injective (by
      rw [residue_fieldMul, ha, hb, ← map_mul, AdjoinRoot.mk_eq_zero.mpr h, residue_zero])
    refine (eq_zero_of_fieldMul_eq_zero hzero).imp (fun h0 => ?_) fun h0 => ?_
    · rw [← AdjoinRoot.mk_eq_zero, ← ha, h0, residue_zero]
    · rw [← AdjoinRoot.mk_eq_zero, ← hb, h0, residue_zero]

/-! ### Interpolation at 0 -/

/-- A polynomial of degree below the number of points has at 0 the Lagrange sum of its values (44_combiner R150, R155). -/
theorem eval_zero_eq_lagrange_sum {F ι : Type*} [Field F] [DecidableEq ι] {S : Finset ι} {v : ι → F} (hv : Set.InjOn v S)
    {f : F[X]} (hf : f.degree < S.card) :
    f.eval 0 = ∑ i ∈ S, f.eval (v i) * ∏ j ∈ S.erase i, v j / (v j - v i) := by
  have hfactor (x y : F) : (Lagrange.basisDivisor x y).eval 0 = y / (y - x) := by
    rw [Lagrange.basisDivisor, eval_mul, eval_C, eval_sub, eval_X, eval_C, zero_sub, mul_neg, ← neg_mul, ← inv_neg, neg_sub,
      div_eq_inv_mul]
  have hinterpolate := Lagrange.eq_interpolate_of_eval_eq (fun i => f.eval (v i)) hv hf fun _ _ => rfl
  calc f.eval 0
    _ = (Lagrange.interpolate S v fun i => f.eval (v i)).eval 0 := congrArg (eval 0) hinterpolate
    _ = _ := by
      simp only [Lagrange.interpolate_apply, eval_finsetSum, eval_mul, eval_C, Lagrange.basis, eval_prod, hfactor]

end Sys2Proof.Machine
end

section
/-!
PROOFS. The Combiner's weights: the guarded loop of the model gives the product of the quotients, which depends on the set of the
ids and on the share's own id alone (44_combiner R150, R152, R154).
-/

namespace Sys2Proof.Machine

variable {ids : List Byte}

/-- The quotient `y / (y - x)`, the factor of the share with id `y` in the weight of the share with id `x` (44_combiner R150). -/
def quotient (x y : Byte) : Byte := fieldMul y (fieldPow (y ^^^ x) 254)

/-- The weight at 0 of the share with id `x` among the shares with these ids (44_combiner R150). -/
def weightOf (ids : List Byte) (x : Byte) : Byte := prodAll ((ids.filter (· != x)).map (quotient x))

theorem fieldDiv_eq_quotient {x y : Byte} (h : y ≠ x) : fieldDiv y (fieldSub y x) = some (quotient x y) :=
  fieldDiv_of_ne_zero y (xor_ne_zero h)

theorem quotient_fieldMul {x y : Byte} (h : y ≠ x) : fieldMul (quotient x y) (y ^^^ x) = y := by
  rw [quotient, fieldMul_assoc, fieldMul_comm _ (y ^^^ x), fieldMul_fieldPow_254 (xor_ne_zero h), fieldMul_one]

theorem quotient_ne_zero {x y : Byte} (h : y ≠ x) (hy : y ≠ 0) : quotient x y ≠ 0 := by
  intro h0
  have hmul := quotient_fieldMul h
  rw [h0, zero_fieldMul] at hmul
  exact hy hmul.symm

theorem weightOf_ne_zero (h : ∀ y ∈ ids, y ≠ 0) (x : Byte) : weightOf ids x ≠ 0 := by
  refine prodAll_ne_zero fun q hq => ?_
  obtain ⟨y, hy, rfl⟩ := List.mem_map.mp hq
  obtain ⟨hmem, hne⟩ := List.mem_filter.mp hy
  exact quotient_ne_zero (by simpa using hne) (h y hmem)

/-- The weight does not depend on the order of the ids (44_combiner R152). -/
theorem weightOf_perm {ids' : List Byte} (h : ids.Perm ids') (x : Byte) : weightOf ids x = weightOf ids' x :=
  prodAll_perm ((h.filter _).map _)

/-! ### By slot -/

theorem idAt_eq_getElem {i : Nat} (hi : i < ids.length) : idAt ids i = ids[i] := by
  simp [idAt, hi]

theorem map_getD_range (bs : List Byte) : ((List.range bs.length).map fun i => bs.getD i 0) = bs :=
  List.ext_getElem (by simp) fun i _ hi => by simp [hi]

theorem map_idAt_range (ids : List Byte) : (List.range ids.length).map (idAt ids) = ids := map_getD_range ids

theorem idAt_eq_iff (hnd : ids.Nodup) {i j : Nat} (hi : i < ids.length) (hj : j < ids.length) :
    idAt ids j = idAt ids i ↔ j = i := by
  rw [idAt_eq_getElem hi, idAt_eq_getElem hj, hnd.getElem_inj_iff]

theorem mem_others {m i j : Nat} : j ∈ others m i ↔ j < m ∧ j ≠ i := by
  simp [others]

/-- The slots other than `i` hold the ids other than that of slot `i`. -/
theorem map_idAt_others (hnd : ids.Nodup) {i : Nat} (hi : i < ids.length) :
    (others ids.length i).map (idAt ids) = ids.filter (· != idAt ids i) := by
  have hindices : others ids.length i = (List.range ids.length).filter fun j => idAt ids j != idAt ids i :=
    List.filter_congr fun j hj => by simp [bne, idAt_eq_iff hnd hi (List.mem_range.mp hj)]
  calc (others ids.length i).map (idAt ids)
    _ = ((List.range ids.length).map (idAt ids)).filter (· != idAt ids i) := by rw [hindices, List.filter_map]; rfl
    _ = ids.filter (· != idAt ids i) := by rw [map_idAt_range]

theorem weightOf_idAt (hnd : ids.Nodup) {i : Nat} (hi : i < ids.length) : weightOf ids (idAt ids i) =
    prodAll ((others ids.length i).map fun j => quotient (idAt ids i) (idAt ids j)) := by
  rw [weightOf, ← map_idAt_others hnd hi, List.map_map]
  rfl

/-- One round of the model's loop for the weight of share `i`. -/
def weightStep (ids : List Byte) (i : Nat) (w : Option Byte) (j : Nat) : Option Byte :=
  if j = i then w else w.bind fun v => (weightFactor ids i j).map (fieldMul v)

theorem weight_eq_foldl (ids : List Byte) (i : Nat) :
    weight ids i = (List.range ids.length).foldl (weightStep ids i) (some 1) := rfl

theorem weightStep_some (hnd : ids.Nodup) {i j : Nat} (hi : i < ids.length) (hj : j < ids.length) (hne : j ≠ i) (v : Byte) :
    weightStep ids i (some v) j = some (fieldMul v (quotient (idAt ids i) (idAt ids j))) := by
  rw [weightStep, if_neg hne, Option.bind_some, weightFactor,
    fieldDiv_eq_quotient (mt (idAt_eq_iff hnd hi hj).mp hne), Option.map_some]

/-- The loop multiplies the factors of the other slots onto what it has; no divisor is 0 (44_combiner R154). -/
theorem foldl_weightStep (hnd : ids.Nodup) {i : Nat} (hi : i < ids.length) (js : List Nat) (hjs : ∀ j ∈ js, j < ids.length)
    (v : Byte) : js.foldl (weightStep ids i) (some v) =
      some (fieldMul v (prodAll ((js.filter (· != i)).map fun j => quotient (idAt ids i) (idAt ids j)))) := by
  induction js generalizing v with
  | nil => exact congrArg some (fieldMul_one v).symm
  | cons j js ih =>
    obtain ⟨hj, hjs⟩ := List.forall_mem_cons.mp hjs
    rw [List.foldl_cons]
    by_cases hji : j = i
    · rw [weightStep, if_pos hji, ih hjs, List.filter_cons_of_neg (by simpa using hji)]
    · rw [weightStep_some hnd hi hj hji, ih hjs, List.filter_cons_of_pos (by simpa using hji), List.map_cons, prodAll,
        fieldMul_assoc]

theorem weight_eq (hnd : ids.Nodup) {i : Nat} (hi : i < ids.length) : weight ids i = some (weightOf ids (idAt ids i)) := by
  rw [weight_eq_foldl, foldl_weightStep hnd hi _ (fun _ => List.mem_range.mp), one_fieldMul, weightOf_idAt hnd hi, others]

theorem allSome_map_some {α : Type} (f : α → Byte) (l : List α) : allSome (l.map fun a => some (f a)) = some (l.map f) := by
  induction l with
  | nil => rfl
  | cons a l ih => rw [List.map_cons, allSome, ih, Option.map_some, List.map_cons]

/-- Distinct ids have their weights: the guarded DomainError does not occur (44_combiner R154). -/
theorem weights_eq (hnd : ids.Nodup) : weights ids = some (ids.map (weightOf ids)) := by
  have hslots : (List.range ids.length).map (weight ids) =
      ((List.range ids.length).map (idAt ids)).map fun x => some (weightOf ids x) := by
    rw [List.map_map]
    exact List.map_congr_left fun i hi => weight_eq hnd (List.mem_range.mp hi)
  rw [weights, hslots, map_idAt_range, allSome_map_some]

end Sys2Proof.Machine
end

section
/-!
PROOFS. The command COMBINE: its three failures, and the bytes it recovers as a sum over the shares (44_combiner R151 to R153).
-/

namespace Sys2Proof.Machine

variable {s t : State} {sh : List Share}

/-! ### The recovered bytes -/

/-- Byte `p` that COMBINE recovers from these shares: the sum of payload byte times weight (44_combiner R151). -/
def recoveredByte (sh : List Share) (p : Nat) : Byte :=
  xorAll (sh.map fun x => fieldMul (x.pay.getD p 0) (weightOf (sh.map Share.id) x.id))

/-- The first `len` bytes that COMBINE recovers from these shares. -/
def recovered (sh : List Share) (len : Nat) : List Byte := (List.range len).map (recoveredByte sh)

theorem xorAll_eq_foldl (bs : List Byte) : bs.foldl fieldAdd 0 = xorAll bs := by
  have hacc : ∀ c : Byte, bs.foldl fieldAdd c = c ^^^ xorAll bs := by
    induction bs with
    | nil => exact fun c => BitVec.xor_zero.symm
    | cons b bs ih => exact fun c => (ih _).trans (BitVec.xor_assoc c b _)
  exact (hacc 0).trans BitVec.zero_xor

theorem combineBytes_eq_recovered (sh : List Share) (len : Nat) :
    combineBytes sh ((sh.map Share.id).map (weightOf (sh.map Share.id))) len = recovered sh len := by
  refine List.map_congr_left fun p _ => ?_
  rw [combineByte, xorAll_eq_foldl, recoveredByte, List.map_map, List.map_zip_eq_zipWith, List.zipWith_map_right,
    List.zipWith_self]
  rfl

/-- The order of the shares does not matter (44_combiner R152). -/
theorem recovered_perm {sh' : List Share} (h : sh.Perm sh') (len : Nat) : recovered sh len = recovered sh' len := by
  refine List.map_congr_left fun p _ => ?_
  have hweight : weightOf (sh.map Share.id) = weightOf (sh'.map Share.id) := funext (weightOf_perm (h.map _))
  rw [recoveredByte, recoveredByte, hweight]
  exact xorAll_perm (h.map _)

/-! ### The checks -/

theorem responds_combine_insufficientShares (h : s.scnt < 2) : Responds .combine s 0x05000000 := by
  show execCombine s = _
  rw [execCombine, if_pos h]
  rfl

theorem responds_combine_malformedShares (h2 : 2 ≤ s.scnt) (hlen : ¬ ∀ x ∈ s.mem.sh, x.pay.length = firstLen s.mem.sh) :
    Responds .combine s 0x06000000 := by
  show execCombine s = _
  rw [execCombine, if_neg h2.not_gt, if_pos (by simpa using hlen)]
  rfl

theorem responds_combine_duplicateShareId (h2 : 2 ≤ s.scnt) (hlen : ∀ x ∈ s.mem.sh, x.pay.length = firstLen s.mem.sh)
    (hnd : ¬ (s.mem.sh.map Share.id).Nodup) : Responds .combine s 0x07000000 := by
  show execCombine s = _
  rw [execCombine, if_neg h2.not_gt, if_neg (by simpa using hlen), if_pos hnd]
  rfl

theorem firstLen_eq {len : Nat} (h2 : 2 ≤ sh.length) (hlen : ∀ x ∈ sh, x.pay.length = len) : firstLen sh = len := by
  obtain ⟨x, xs, rfl⟩ := List.exists_cons_of_length_pos (Nat.zero_lt_of_lt h2)
  exact hlen x List.mem_cons_self

/-- COMBINE of two or more shares of one length and distinct ids leaves the recovered bytes in SEC (44_combiner R151). -/
theorem exec_combine {len : Nat} (h2 : 2 ≤ s.scnt) (hlen : ∀ x ∈ s.mem.sh, x.pay.length = len)
    (hnd : (s.mem.sh.map Share.id).Nodup) : exec .combine s = .next ((s.setSec (recovered s.mem.sh len)).answer 0x00 0) := by
  obtain rfl := firstLen_eq h2 hlen
  show execCombine s = _
  rw [execCombine, if_neg h2.not_gt, if_neg (by simpa using hlen), if_neg (not_not.mpr hnd), weights_eq hnd]
  exact congrArg (fun v => respond 0 (s.setSec v)) (combineBytes_eq_recovered _ _)

/-- A COMBINE that answers success passed its three checks. -/
theorem combine_checks_of_success (h : exec .combine s = .next t) (hr : t.rsp = some (success 0)) :
    2 ≤ s.scnt ∧ (∀ x ∈ s.mem.sh, x.pay.length = firstLen s.mem.sh) ∧ (s.mem.sh.map Share.id).Nodup := by
  rcases execCombine_next h with ⟨e, -, rfl⟩ | ⟨ws, h2, hlen, hnd, -, -⟩
  · have hword : responseWord e.code 0 = success 0 := Option.some.inj hr
    exact absurd hword (by cases e <;> decide)
  · exact ⟨h2, hlen, hnd⟩

/-! ### The store by slot -/

theorem slotLen_zero (h : 0 < s.scnt) : s.slotLen 0 = some (firstLen s.mem.sh) := by
  obtain ⟨x, xs, hsh⟩ := List.exists_cons_of_length_pos h
  simp [State.slotLen, readSlot, hsh, firstLen]

theorem slotLen_eq_iff {len : Nat} :
    (∀ k < s.scnt, s.slotLen k = some len) ↔ ∀ x ∈ s.mem.sh, x.pay.length = len := by
  rw [List.forall_mem_iff_forall_getElem]
  refine forall₂_congr fun k hk => ?_
  simp [State.slotLen, readSlot, List.getElem?_eq_getElem hk]

/-- The second check of COMBINE, by slot. -/
theorem slotLens_equal_iff (h2 : 2 ≤ s.scnt) : (∀ k < s.scnt, s.slotLen k = s.slotLen 0) ↔
    ∀ x ∈ s.mem.sh, x.pay.length = firstLen s.mem.sh := by
  rw [slotLen_zero (Nat.zero_lt_of_lt h2), slotLen_eq_iff]

/-- What slot `i` holds, for the store as a list. -/
theorem slot_getElem {i : Nat} (hi : i < s.mem.sh.length) :
    s.idOf i = s.mem.sh[i].id ∧ ∀ p, s.payOf i p = s.mem.sh[i].pay.getD p 0 := by
  simp [State.idOf, State.payOf, State.readByte, readSlot, readCell, hi]

theorem idOf_eq_idAt {i : Nat} (hi : i < s.scnt) : s.idOf i = idAt (s.mem.sh.map Share.id) i := by
  have hi' : i < (s.mem.sh.map Share.id).length := by rwa [List.length_map]
  obtain ⟨hid, -⟩ := slot_getElem hi
  rw [idAt_eq_getElem hi', List.getElem_map]
  exact hid

theorem recoveredByte_by_slot (p : Nat) : recoveredByte s.mem.sh p =
    xorAll ((List.range s.scnt).map fun i => fieldMul (s.payOf i p) (weightOf (s.mem.sh.map Share.id) (s.idOf i))) := by
  refine congrArg xorAll (List.ext_getElem (by simp [State.scnt]) fun i hi _ => ?_)
  obtain ⟨hid, hpay⟩ := slot_getElem (s := s) (i := i) (by simpa using hi)
  simp [hid, hpay]

theorem isWeight_weightOf (hnd : (s.mem.sh.map Share.id).Nodup) {i : Nat} (hi : i < s.scnt) :
    IsWeight s s.scnt i (weightOf (s.mem.sh.map Share.id) (s.idOf i)) := by
  generalize hids : s.mem.sh.map Share.id = ids at hnd
  have hcount : s.scnt = ids.length := by rw [← hids, List.length_map, State.scnt]
  have hid : ∀ j < s.scnt, s.idOf j = idAt ids j := fun j hj => hids ▸ idOf_eq_idAt hj
  refine ⟨fun j => quotient (s.idOf i) (s.idOf j), fun j hj => ?_, ?_⟩
  · obtain ⟨hj, hne⟩ := mem_others.mp hj
    refine quotient_fieldMul ?_
    rw [hid i hi, hid j hj, Ne, idAt_eq_iff hnd (hcount ▸ hi) (hcount ▸ hj)]
    exact hne
  · rw [hid i hi, weightOf_idAt hnd (hcount ▸ hi), ← hcount]
    refine congrArg prodAll (List.map_congr_left fun j hj => ?_)
    obtain ⟨hj, -⟩ := mem_others.mp hj
    rw [hid j hj]

/-! ### The statements -/

/-- Settles O46: the weights of the loop are the products of the quotients, and the three checks are the three failures. -/
theorem combineInterpolatesAtZero : Obligations.CombineInterpolatesAtZero := by
  refine ⟨fun s len h2 hlen hnd => ?_, fun s => responds_combine_insufficientShares, fun s h2 hne => ?_,
    fun s h2 hlen => responds_combine_duplicateShareId h2 ((slotLens_equal_iff h2).mp hlen), ?_, ?_⟩
  · refine ⟨fun i => weightOf (s.mem.sh.map Share.id) (s.idOf i), fun i => isWeight_weightOf hnd, fun hid i _ => ?_, ?_⟩
    · exact weightOf_ne_zero (List.forall_mem_map.mpr hid) _
    · rw [exec_combine h2 (slotLen_eq_iff.mp hlen) hnd, recovered, funext recoveredByte_by_slot]
      rfl
  · refine responds_combine_malformedShares h2 fun hall => ?_
    obtain ⟨k, hk, hne⟩ := hne
    exact hne ((slotLens_equal_iff h2).mpr hall k hk)
  · exact wordExecutes_of_encode (encodeZ_toNat 0x40)
  · exact reservedBitsIllegal_of_opcodeFormat (f := .z .combine) rfl

/-- Settles O47: a rearranged store passes the same checks, and a sum over the shares does not depend on their order. -/
theorem combineIgnoresSlotOrder : Obligations.CombineIgnoresSlotOrder := by
  intro s t sh hperm h hr
  obtain ⟨h2, hlen, hnd⟩ := combine_checks_of_success h hr
  rw [exec_combine h2 hlen hnd] at h
  cases h
  refine ⟨_, exec_combine (s := s.setSh sh) (h2.trans_eq hperm.length_eq) (fun x hx => hlen x (hperm.mem_iff.mpr hx))
    ((hperm.map _).nodup_iff.mp hnd), rfl, (recovered_perm hperm _).symm⟩

/-- Settles O48: the recovered bytes are a function of the share store. -/
theorem combineIsAFunctionOfTheShares : Obligations.CombineIsAFunctionOfTheShares := by
  intro s len h2 hlen hnd
  refine ⟨recovered s.mem.sh len, by rw [recovered, List.length_map, List.length_range], fun u hu => ?_⟩
  rw [← hu]
  exact exec_combine (by rwa [State.scnt, hu]) (hu ▸ slotLen_eq_iff.mp hlen) (hu ▸ hnd)

end Sys2Proof.Machine
end

section
/-!
PROOFS. Recovery (44_combiner R155): a payload byte is the value at the share's id of the polynomial that SPLIT built, and COMBINE
is interpolation at 0, where that polynomial has the secret byte.
-/

namespace Sys2Proof.Machine

open Polynomial

/-! ### Interpolation of bytes -/

theorem residue_quotient [Fact (Irreducible modulus)] {x y : Byte} (h : y ≠ x) :
    residue (quotient x y) = residue y / (residue y - residue x) := by
  rw [eq_div_iff (sub_ne_zero.mpr (residue_injective.ne h)), ← residue_xor_eq_sub, ← residue_fieldMul, quotient_fieldMul h]

theorem residue_weightOf [Fact (Irreducible modulus)] {ids : List Byte} (hnd : ids.Nodup) (x : Byte) :
    residue (weightOf ids x) = ∏ y ∈ ids.toFinset.erase x, residue y / (residue y - residue x) := by
  have hothers : ids.toFinset.erase x = (ids.filter (· != x)).toFinset := by
    ext y
    simp [and_comm]
  rw [weightOf, residue_prodAll, List.map_map, hothers, List.prod_toFinset _ (hnd.filter _)]
  refine congrArg List.prod (List.map_congr_left fun y hy => residue_quotient ?_)
  simpa using (List.mem_filter.mp hy).2

/-- The polynomial with these bytes as its coefficients, over the field of residues (42_polynomial R131). -/
noncomputable def coeffPoly (c : List Byte) : Polynomial (AdjoinRoot modulus) :=
  ∑ i : Fin c.length, C (residue (c.get i)) * X ^ (i : Nat)

theorem degree_coeffPoly_lt (c : List Byte) : (coeffPoly c).degree < c.length := degree_sum_fin_lt _

theorem coeffPoly_cons (d : Byte) (ds : List Byte) : coeffPoly (d :: ds) = C (residue d) + coeffPoly ds * X := by
  simp [coeffPoly, Fin.sum_univ_succ, Finset.sum_mul, pow_succ, mul_assoc]

theorem residue_evalPoly (c : List Byte) (x : Byte) : residue (evalPoly c x) = (coeffPoly c).eval (residue x) := by
  induction c with
  | nil => exact residue_zero.trans eval_zero.symm
  | cons d ds ih =>
    rw [evalPoly_step, fieldAdd, residue_xor, residue_fieldMul, ih, coeffPoly_cons, eval_add, eval_C, eval_mul_X, add_comm]

/-- The sum of values times weights of a polynomial with no more coefficients than there are ids is its value at 0
(44_combiner R155). -/
theorem interpolate_evalPoly {ids c : List Byte} (hnd : ids.Nodup) (hc : c.length ≤ ids.length) :
    xorAll (ids.map fun x => fieldMul (evalPoly c x) (weightOf ids x)) = evalPoly c 0 := by
  have := Fact.mk modulus_irreducible
  have hdegree : (coeffPoly c).degree < ids.toFinset.card := by
    rw [List.toFinset_card_of_nodup hnd]
    exact (degree_coeffPoly_lt c).trans_le (Nat.cast_le.mpr hc)
  apply residue_injective
  rw [residue_evalPoly, residue_zero, eval_zero_eq_lagrange_sum residue_injective.injOn hdegree,
    List.sum_toFinset _ hnd, residue_xorAll, List.map_map]
  refine congrArg List.sum (List.map_congr_left fun x _ => ?_)
  rw [Function.comp_apply, residue_fieldMul, residue_evalPoly, residue_weightOf hnd]

/-! ### Split, then combine -/

variable {s : State} {n k : Count12}

/-- A share of a split is determined by its id: each payload byte is the value of its polynomial there (43_splitter R142). -/
theorem pay_of_mem_splitShares {polys : List (List Byte)} {m : Nat} {x : Share} (h : x ∈ splitShares polys m) :
    x.pay = polys.map (evalPoly · x.id) := by
  obtain ⟨j, -, rfl⟩ := List.mem_map.mp h
  rfl

/-- Enough shares of a split recover at each position the constant term of its polynomial. -/
theorem recoveredByte_of_split {c : Nat → List Byte} {L m p : Nat} {kept : List Share} (hp : p < L)
    (hkept : kept ⊆ splitShares ((List.range L).map c) m) (hnd : (kept.map Share.id).Nodup)
    (hlen : (c p).length ≤ kept.length) : recoveredByte kept p = evalPoly (c p) 0 := by
  rw [← interpolate_evalPoly hnd (by rwa [List.length_map]), recoveredByte, List.map_map]
  refine congrArg xorAll (List.map_congr_left fun x hx => ?_)
  simp [pay_of_mem_splitShares (hkept hx), hp]

theorem evalPoly_splitPoly_zero {k : Nat} (hk : 0 < k) (s : State) (p : Nat) :
    evalPoly (splitPoly s k p) 0 = s.mem.sec.getD p 0 := by
  rw [splitPoly_eq_cons hk, evalPoly_cons_zero]

/-- Settles O49: at each position COMBINE gives the value at 0 of the polynomial of that position, which is the secret byte. -/
theorem anyThresholdSharesRecoverTheSecret : Obligations.AnyThresholdSharesRecoverTheSecret := by
  intro n k s t kept hk hkn hn h hsub hnd hcount
  have hpos : 0 < k.toNat := Nat.zero_lt_of_lt hk
  cases (execSplit_legal hk hkn hn).symm.trans h
  have hkept : kept ⊆ splitShares ((List.range s.slen).map (splitPoly s k.toNat)) n.toNat := by
    have hpolys : (splitPolys k.toNat s.mem.sec s.src).1 = (List.range s.slen).map (splitPoly s k.toNat) :=
      splitPolys_eq_map hpos rfl
    rw [← hpolys]
    exact hsub
  have hlen : ∀ x ∈ kept, x.pay.length = s.slen := fun x hx => by
    rw [pay_of_mem_splitShares (hkept hx), List.length_map, List.length_map, List.length_range]
  have hbyte : ∀ p ∈ List.range s.slen, recoveredByte kept p = s.mem.sec.getD p 0 := fun p hp => by
    rw [recoveredByte_of_split (List.mem_range.mp hp) hkept hnd (by simpa [splitPoly] using hcount),
      evalPoly_splitPoly_zero hpos]
  have hsecret : recovered kept s.slen = s.mem.sec := (List.map_congr_left hbyte).trans (map_getD_range s.mem.sec)
  refine ⟨_, exec_combine (s := State.setSh _ kept) (hk.trans hcount) hlen hnd, rfl, hsecret, congrArg List.length hsecret⟩

end Sys2Proof.Machine
end

section
/-!
PROOFS. The Share Codec: what ENC and DEC do in each of their cases, and the round trip through the codec buffer (45_codec R160 to
R162).
-/

namespace Sys2Proof.Machine

variable {s t : State} {x : Share} {j : Byte}

/-! ### ENC -/

/-- ENC of an occupied slot writes the encoded share over IO (45_codec R160). -/
theorem exec_enc (hx : s.mem.sh[j.toNat]? = some x) :
    exec (.enc j) s = .next ((s.setIo (encodeShare x)).answer 0x00 0) := by
  show execEnc j s = _
  rw [execEnc, readSlot, hx]
  rfl

theorem responds_enc_badAddress (h : s.scnt ≤ j.toNat) : Responds (.enc j) s 0x81000000 := by
  have hslot : s.mem.sh[j.toNat]? = none := List.getElem?_eq_none h
  show execEnc j s = _
  rw [execEnc, readSlot, hslot]
  rfl

/-- Cell by cell, IO after ENC holds the id and then the payload of the slot. -/
theorem reads_of_exec_enc {len : Nat} (hlen : s.slotLen j.toNat = some len) (ht : exec (.enc j) s = .next t) :
    t.iolen = 1 + len ∧ t.readByte (.io 0) = s.readByte (.id j.toNat) ∧
      ∀ q, t.readByte (.io (1 + q)) = s.readByte (.pay j.toNat q) := by
  obtain ⟨x, hslot, rfl⟩ := Option.map_eq_some_iff.mp hlen
  obtain ⟨hid, -, hpay⟩ := reads_of_readSlot hslot
  obtain rfl := Host.Outcome.next.inj ((exec_enc hslot).symm.trans ht)
  refine ⟨Nat.add_comm _ 1, hid.symm, fun q => ?_⟩
  rw [hpay, Nat.add_comm]
  rfl

/-- Settles O50: IO is the encoding of the slot, whose cells are the id and then the payload. -/
theorem encodeWritesIdThenPayload : Obligations.EncodeWritesIdThenPayload := by
  obtain ⟨-, hwords, -⟩ := commandWordsByFormat
  refine ⟨fun j s x => exec_enc, fun j s t len hlen ht => ?_, fun j s => responds_enc_badAddress, fun j => ?_, ?_⟩
  · obtain ⟨hiolen, hid, hpay⟩ := reads_of_exec_enc hlen ht
    exact ⟨hiolen, hid, fun q _ => hpay q⟩
  · obtain ⟨-, -, -, -, -, -, -, -, henc, -⟩ := hwords j
    exact wordExecutes_of_encode henc
  · exact reservedBitsIllegal_of_opcodeFormat (f := .a .enc) rfl

/-! ### DEC -/

/-- A buffer is no encoded share exactly when it is too short or its first byte is 0 (45_codec R161). -/
theorem decodeShare_eq_none_iff : decodeShare s.mem.io = none ↔ s.iolen < 2 ∨ s.readByte (.io 0) = some 0 := by
  rw [State.iolen, State.readByte, readCell]
  match s.mem.io with
  | [] => simp [decodeShare]
  | [_] => simp [decodeShare]
  | id :: p :: ps => simp [decodeShare]

/-- DEC of an encoded share appends the share to a store with room (45_codec R161). -/
theorem exec_dec (hx : decodeShare s.mem.io = some x) (hroom : s.scnt ≠ 255) :
    exec .dec s = .next ((s.setSh (s.mem.sh ++ [x])).answer 0x00 0) := by
  show execDec s = _
  rw [execDec, hx]
  exact if_neg hroom

theorem responds_dec_malformedShare (h : decodeShare s.mem.io = none) : Responds .dec s 0x08000000 := by
  show execDec s = _
  rw [execDec, h]
  rfl

theorem responds_dec_capacityExceeded (hx : decodeShare s.mem.io = some x) (hfull : s.scnt = 255) :
    Responds .dec s 0x82000000 := by
  show execDec s = _
  rw [execDec, hx]
  exact if_pos hfull

/-- Settles O51: by whether the buffer decodes to a share, and then by whether the store has room. -/
theorem decodeAppendsTheShare : Obligations.DecodeAppendsTheShare := by
  obtain ⟨⟨-, -, -, -, -, hword⟩, -⟩ := commandWordsByFormat
  refine ⟨fun s id p ps hio hid hroom => ?_, fun s h => ?_, fun s hlen hid hfull => ?_, wordExecutes_of_encode hword,
    reservedBitsIllegal_of_opcodeFormat (f := .z .dec) rfl⟩
  · exact exec_dec (decodeShare_eq_some.mpr ⟨hio, hid, List.cons_ne_nil p ps⟩) hroom
  · exact responds_dec_malformedShare (decodeShare_eq_none_iff.mpr h)
  · have hsome : decodeShare s.mem.io ≠ none := fun h => (decodeShare_eq_none_iff.mp h).elim hlen.not_gt hid
    obtain ⟨x, hx⟩ := Option.ne_none_iff_exists'.mp hsome
    exact responds_dec_capacityExceeded hx hfull

/-! ### The round trip -/

/-- Settles O52: DEC runs on the encoding of the slot, which decodes to it unless its payload is empty. -/
theorem codecRoundTrip : Obligations.CodecRoundTrip := by
  constructor
  · intro j s x hslot hpay hid hroom
    have hx : decodeShare (encodeShare x) = some x := decodeShare_eq_some.mpr ⟨rfl, hid, hpay⟩
    exact ⟨_, _, exec_enc hslot, exec_dec hx hroom, rfl, rfl⟩
  · rintro j s ⟨id, pay⟩ hslot rfl
    exact ⟨_, exec_enc hslot, rfl, rfl, responds_dec_malformedShare rfl⟩

end Sys2Proof.Machine
end

section
/-!
PROOFS. The buffer access commands that write: a clear leaves no readable cell, a push adds one cell at the length register, and a
delete moves the slots above it down by one (46_buffer_access R170, R171, R173, R174, R176, R177, R181, R182).
-/

namespace Sys2Proof.Machine

variable {s t : State}

/-! ### Clears -/

/-- A space with length 0 has no readable cell (20_memory R55). -/
theorem readByte_of_lengthOf_eq_zero {l : Loc} (h : s.lengthOf l.space = 0) : s.readByte l = none := by
  cases l with
  | sec i | coef i | io i => exact List.getElem?_eq_none (h.trans_le i.zero_le)
  | id j | pay j q =>
    have hslot : readSlot s.mem.sh j = none := List.getElem?_eq_none (h.trans_le j.zero_le)
    simp [State.readByte, hslot]

/-- Settles O53: each clear writes the empty list, and an empty space has no readable cell. -/
theorem clearsEmptyTheirSpace : Obligations.ClearsEmptyTheirSpace := by
  obtain ⟨⟨hcclr, hsclr, hshclr, hioclr, -⟩, -⟩ := commandWordsByFormat
  refine ⟨fun s => ⟨rfl, rfl, rfl, rfl⟩, fun i sp s t hi ht => ?_,
    ⟨wordExecutes_of_encode hcclr, wordExecutes_of_encode hsclr, wordExecutes_of_encode hshclr, wordExecutes_of_encode hioclr⟩,
    reservedBitsIllegal_of_opcodeFormat (f := .z .cclr) rfl, reservedBitsIllegal_of_opcodeFormat (f := .z .sclr) rfl,
    reservedBitsIllegal_of_opcodeFormat (f := .z .shclr) rfl, reservedBitsIllegal_of_opcodeFormat (f := .z .ioclr) rfl⟩
  have hlen : t.lengthOf sp = 0 := by
    simp only [List.mem_cons, Prod.mk.injEq, List.not_mem_nil, or_false] at hi
    rcases hi with ⟨rfl, rfl⟩ | ⟨rfl, rfl⟩ | ⟨rfl, rfl⟩ | ⟨rfl, rfl⟩ <;>
      · rw [respond_next ht]
        rfl
  exact ⟨hlen, fun l hl => readByte_of_lengthOf_eq_zero (hl ▸ hlen)⟩

/-! ### Pushes -/

/-- `t` has one readable cell more than `s`, at the end of its space, and it reads `b`. -/
def Appended (b : Byte) (at_ : Loc) (s t : State) : Prop :=
  t.readByte at_ = some b ∧ t.lengthOf at_.space = s.lengthOf at_.space + 1 ∧ ∀ l, l ≠ at_ → t.readByte l = s.readByte l

theorem readCell_append_length (cells : List Byte) (b : Byte) : readCell (cells ++ [b]) cells.length = some b :=
  List.getElem?_concat_length

theorem readCell_append_of_ne {cells : List Byte} {i : Nat} (b : Byte) (h : i ≠ cells.length) :
    readCell (cells ++ [b]) i = readCell cells i := by
  rcases Nat.lt_or_gt_of_ne h with hlt | hgt
  · exact List.getElem?_append_left hlt
  · rw [readCell, readCell, List.getElem?_eq_none hgt.le, List.getElem?_eq_none (by simpa using hgt)]

theorem appended_setSec (b : Byte) : Appended b (.sec s.slen) s (s.setSec (s.mem.sec ++ [b])) := by
  refine ⟨readCell_append_length _ b, List.length_append, fun l hl => ?_⟩
  cases l with
  | sec i => exact readCell_append_of_ne b fun hi => hl (congrArg Loc.sec hi)
  | coef | id | pay | io => rfl

theorem appended_setCoef (b : Byte) : Appended b (.coef s.clen) s (s.setCoef (s.mem.coef ++ [b])) := by
  refine ⟨readCell_append_length _ b, List.length_append, fun l hl => ?_⟩
  cases l with
  | coef i => exact readCell_append_of_ne b fun hi => hl (congrArg Loc.coef hi)
  | sec | id | pay | io => rfl

theorem appended_setIo (b : Byte) : Appended b (.io s.iolen) s (s.setIo (s.mem.io ++ [b])) := by
  refine ⟨readCell_append_length _ b, List.length_append, fun l hl => ?_⟩
  cases l with
  | io i => exact readCell_append_of_ne b fun hi => hl (congrArg Loc.io hi)
  | sec | coef | id | pay => rfl

/-- The cells do not depend on the channels. -/
theorem Appended.answer {b : Byte} {at_ : Loc} (h : Appended b at_ s t) (e : Byte) (d : Half) :
    Appended b at_ s (t.answer e d) := h

/-- No error is answered as a success with data 0 is (30_encoding R78). -/
theorem rsp_answer_code_ne_success (e : Err) : (s.answer e.code 0).rsp ≠ some (success 0) := by
  intro h
  have hword : responseWord e.code 0 = success 0 := Option.some.inj h
  exact absurd hword (by cases e <;> decide)

/-- A push that succeeds appends its byte at the length register. -/
theorem appended_of_push {b : Byte} {i : Instr} {at_ : Loc}
    (hi : (i, at_) ∈ [(.cpush b, .coef s.clen), (.spush b, .sec s.slen), (.iopush b, .io s.iolen)])
    (ht : exec i s = .next t) (hr : t.rsp = some (success 0)) : Appended b at_ s t := by
  simp only [List.mem_cons, Prod.mk.injEq, List.not_mem_nil, or_false] at hi
  rcases hi with ⟨rfl, rfl⟩ | ⟨rfl, rfl⟩ | ⟨rfl, rfl⟩
  · obtain ⟨-, rfl⟩ | ⟨-, rfl⟩ := execCpush_next ht
    · exact absurd hr (rsp_answer_code_ne_success _)
    · exact (appended_setCoef b).answer _ _
  · obtain ⟨-, rfl⟩ | ⟨-, rfl⟩ := execSpush_next ht
    · exact absurd hr (rsp_answer_code_ne_success _)
    · exact (appended_setSec b).answer _ _
  · obtain ⟨-, rfl⟩ | ⟨-, rfl⟩ := execIopush_next ht
    · exact absurd hr (rsp_answer_code_ne_success _)
    · exact (appended_setIo b).answer _ _

/-- Settles O54: by whether the buffer is full. -/
theorem pushesAppendOneByte : Obligations.PushesAppendOneByte := by
  obtain ⟨-, hwords, -⟩ := commandWordsByFormat
  refine ⟨fun b s hroom => if_neg hroom, fun b s hroom => if_neg hroom, fun b s hroom => if_neg hroom,
    fun b i at_ s t => appended_of_push, fun b s => ⟨fun hfull => if_pos hfull, fun hfull => if_pos hfull, fun hfull => if_pos hfull⟩,
    fun b => ?_, reservedBitsIllegal_of_opcodeFormat (f := .a .cpush) rfl, reservedBitsIllegal_of_opcodeFormat (f := .a .spush) rfl,
    reservedBitsIllegal_of_opcodeFormat (f := .a .iopush) rfl⟩
  obtain ⟨-, -, hcpush, -, hspush, -, -, -, -, hiopush, -⟩ := hwords b
  exact ⟨wordExecutes_of_encode hcpush, wordExecutes_of_encode hspush, wordExecutes_of_encode hiopush⟩

/-! ### Delete -/

theorem exec_shdel {j : Byte} (h : j.toNat < s.scnt) :
    exec (.shdel j) s = .next ((s.setSh (s.mem.sh.eraseIdx j.toNat)).answer 0x00 0) := if_neg h.not_ge

/-- Settles O56: erasing an element of a list keeps the elements before it and moves those after it down. -/
theorem deleteClosesTheGap : Obligations.DeleteClosesTheGap := by
  obtain ⟨-, hwords, -⟩ := commandWordsByFormat
  refine ⟨fun j s h => ?_, fun j s h => if_pos h, fun j => ?_, reservedBitsIllegal_of_opcodeFormat (f := .a .shdel) rfl⟩
  · exact ⟨_, exec_shdel h, rfl, rfl, List.length_eraseIdx_of_lt h, fun k hk => List.getElem?_eraseIdx_of_lt hk,
      fun k hk => List.getElem?_eraseIdx_of_ge hk, rfl, rfl, rfl, rfl, rfl, rfl, rfl⟩
  · obtain ⟨-, -, -, -, -, hshdel, -⟩ := hwords j
    exact wordExecutes_of_encode hshdel

end Sys2Proof.Machine
end

section
/-!
PROOFS. The buffer access commands that read: a byte or a length that is there is answered by its number, one that is not is
BadAddress (46_buffer_access R172, R175, R178 to R180, R183, R184).
-/

namespace Sys2Proof.Machine

variable {s : State} {j : Byte} {q : Half}

/-! ### What a read answers -/

/-- A byte that is read is answered as it is (30_encoding R77). -/
theorem respondByte_some {o : Option Byte} {v : Byte} (h : o = some v) :
    respondByte o s = .next (s.answered (success v.toNat)) := by
  rw [h]
  exact congrArg Host.Outcome.next (answer_zext16 s v)

theorem respondByte_none {o : Option Byte} (h : o = none) : respondByte o s = .next (s.answered 0x81000000) := by
  rw [h]
  rfl

theorem respondLength_none {o : Option Nat} (h : o = none) : respondLength o s = .next (s.answered 0x81000000) := by
  rw [h]
  rfl

/-! ### Cells -/

/-- The readable cells are those below the length (46_buffer_access R184). -/
theorem exists_readCell_iff {cells : List Byte} {k : Nat} : (∃ v, readCell cells k = some v) ↔ k < cells.length := by
  rw [← Option.isSome_iff_exists, readCell, isSome_getElem?]

theorem readCell_eq_none {cells : List Byte} {k : Nat} (h : cells.length ≤ k) : readCell cells k = none :=
  List.getElem?_eq_none h

/-- Settles O55: each command is `respondByte` of a cell, and the cells below the length are the readable ones. -/
theorem indexedReadsAnswerTheCell : Obligations.IndexedReadsAnswerTheCell := by
  obtain ⟨-, hwordsA, -, hwordsI, -⟩ := commandWordsByFormat
  refine ⟨fun i v s => respondByte_some, fun i v s => respondByte_some, fun i v s => respondByte_some,
    fun k s => ⟨exists_readCell_iff, exists_readCell_iff, exists_readCell_iff⟩,
    fun i s h => respondByte_none (readCell_eq_none h),
    fun i s => ⟨fun h => respondByte_none (readCell_eq_none h), fun h => respondByte_none (readCell_eq_none h)⟩,
    fun i => ?_, fun i => ?_, reservedBitsIllegal_of_opcodeFormat (f := .a .crd) rfl,
    reservedBitsIllegal_of_opcodeFormat (f := .i .srd) rfl, reservedBitsIllegal_of_opcodeFormat (f := .i .iord) rfl⟩
  · obtain ⟨-, -, -, hcrd, -⟩ := hwordsA i
    exact wordExecutes_of_encode hcrd
  · obtain ⟨hsrd, hiord⟩ := hwordsI i
    exact ⟨wordExecutes_of_encode hsrd, wordExecutes_of_encode hiord⟩

/-! ### Slots -/

/-- In a state of the invariant every occupied slot holds a well-formed share (10_state R33 (b)). -/
theorem share_wf_of_readSlot {k : Nat} {x : Share} (hinv : s.Inv) (h : readSlot s.mem.sh k = some x) : x.wf s.lmax := by
  obtain ⟨-, ⟨-, -, -, -, hshares⟩, -⟩ := hinv
  exact hshares x (List.mem_of_getElem? h)

theorem id_ne_zero_of_inv {k : Nat} {v : Byte} (hinv : s.Inv) (h : s.readByte (.id k) = some v) : v ≠ 0 := by
  obtain ⟨x, hx, rfl⟩ := Option.map_eq_some_iff.mp h
  obtain ⟨-, hid⟩ := share_wf_of_readSlot hinv hx
  exact hid

theorem slotLen_le_of_inv {k len : Nat} (hinv : s.Inv) (h : s.slotLen k = some len) : len ≤ s.lmax := by
  obtain ⟨x, hx, rfl⟩ := Option.map_eq_some_iff.mp h
  obtain ⟨hlen, -⟩ := share_wf_of_readSlot hinv hx
  exact hlen

/-- SHLEN of a length that fits the data field answers it (46_buffer_access R179). -/
theorem responds_shlen {len : Nat} (h : s.slotLen j.toNat = some len) (hlt : len < 2 ^ 16) :
    Responds (.shlen j) s (success len) := by
  show respondLength (s.slotLen j.toNat) s = _
  rw [h, respondLength_some hlt]

theorem responds_slot_badAddress (h : s.scnt ≤ j.toNat) :
    Responds (.shid j) s 0x81000000 ∧ Responds (.shlen j) s 0x81000000 ∧ Responds (.shrd j q) s 0x81000000 := by
  have hslot : readSlot s.mem.sh j.toNat = none := List.getElem?_eq_none h
  refine ⟨respondByte_none ?_, respondLength_none ?_, respondByte_none ?_⟩
  · rw [State.readByte, hslot, Option.map_none]
  · rw [State.slotLen, hslot, Option.map_none]
  · rw [State.readByte, hslot, Option.bind_none]

theorem responds_shrd_badAddress {len : Nat} (hlen : s.slotLen j.toNat = some len) (hq : len ≤ q.toNat) :
    Responds (.shrd j q) s 0x81000000 := by
  obtain ⟨x, hslot, rfl⟩ := Option.map_eq_some_iff.mp hlen
  obtain ⟨-, -, hpay⟩ := reads_of_readSlot hslot
  exact respondByte_none ((hpay q.toNat).trans (readCell_eq_none hq))

/-- Settles O57: each command is `respondByte` or `respondLength` of a part of a slot, and the invariant bounds that part. -/
theorem slotReadsAnswerTheShare : Obligations.SlotReadsAnswerTheShare := by
  obtain ⟨-, hwordsA, -, -, hwordsAI⟩ := commandWordsByFormat
  refine ⟨fun j v s => respondByte_some, fun j v s => id_ne_zero_of_inv, fun j len s hinv h => ?_,
    fun j q v s => respondByte_some, fun j q s => responds_slot_badAddress, fun j q len s => responds_shrd_badAddress,
    fun j q => ?_, reservedBitsIllegal_of_opcodeFormat (f := .a .shid) rfl,
    reservedBitsIllegal_of_opcodeFormat (f := .a .shlen) rfl⟩
  · have hle : len ≤ s.lmax := slotLen_le_of_inv hinv h
    obtain ⟨-, -, -, -, hlmax⟩ := registers_lt_of_inv hinv
    exact ⟨hle, responds_shlen h (hle.trans_lt hlmax)⟩
  · obtain ⟨-, -, -, -, -, -, hshid, hshlen, -⟩ := hwordsA j
    exact ⟨wordExecutes_of_encode hshid, wordExecutes_of_encode hshlen, wordExecutes_of_encode (hwordsAI j q)⟩

end Sys2Proof.Machine
end

section
/-!
PROOFS. What a command word that ends with an error leaves, and what comes after it; that every step answers; and the reset of a
command in flight (60_exceptions R202, R204; 70_reset R221, R235).
-/

namespace Sys2Proof.Machine

variable {s t : State} {w r : Word}

/-! ### Error responses -/

theorem dataField_responseWord (e : Byte) (d : Half) : dataField (responseWord e d) = d := by
  apply BitVec.eq_of_toNat_eq
  rw [dataField, BitVec.extractLsb'_toNat, responseWord_toNat, Nat.shiftRight_zero]
  omega

theorem code_injective : Function.Injective Err.code := by
  intro e e'
  cases e <;> cases e' <;> decide

theorem code_ne_zero (e : Err) : e.code ≠ 0x00 := by
  cases e <;> decide

/-- A word that ends with an error leaves the state before it with that error's response (60_exceptions R202). -/
theorem runWord_failed (h : runWord w s = .next t) (hr : t.rsp = some r) (herr : errField r ≠ 0) :
    ∃ e : Err, r = responseWord e.code 0 ∧ t = s.answered r := by
  have ofError (e : Err) (ht : t = s.answer e.code 0) : ∃ e : Err, r = responseWord e.code 0 ∧ t = s.answered r := by
    subst ht
    obtain rfl : responseWord e.code 0 = r := Option.some.inj hr
    exact ⟨e, rfl, rfl⟩
  rcases runWord_cases w s with ⟨i, -, hexec⟩ | ⟨-, hraise⟩
  · rcases exec_next (hexec.symm.trans h) with ⟨e, ht⟩ | ⟨m, src, d, rfl⟩
    · exact ofError e ht
    · obtain rfl : responseWord 0x00 d = r := Option.some.inj hr
      exact absurd (errField_responseWord 0x00 d) herr
  · exact ofError .illegalCommand (Host.Outcome.next.inj (h.symm.trans hraise))

/-- Settles O20: the response of a failed word is an error code with data 0, put on the channel of the state before it. -/
theorem failedCommandChangesNothing : Obligations.FailedCommandChangesNothing := by
  intro w s t r h hr herr
  obtain ⟨e, rfl, rfl⟩ := runWord_failed h hr herr
  exact ⟨rfl, dataField_responseWord _ _, e, by simp [responseWord_toNat]⟩

/-- What a word does is the same with another response on the channel. -/
theorem runWord_answered (v : Word) (s : State) (r : Word) : runWord v (s.answered r) = runWord v s := by
  obtain ⟨m, src, r', hrun⟩ := runWord_ended v s
  rw [hrun s ⟨rfl, rfl, rfl⟩, hrun (s.answered r) ⟨rfl, rfl, rfl⟩]
  rfl

/-- Settles O21: the state after the failed word differs from the one before only in its channels, which no word reads. -/
theorem noErrorIsSticky : Obligations.NoErrorIsSticky := by
  intro w s t r h hr herr
  obtain ⟨e, -, rfl⟩ := runWord_failed h hr herr
  exact ⟨fun v => runWord_answered v s r, (runWord_answered w s r).trans h⟩

/-! ### Every step answers -/

theorem runWord_answers (w : Word) (s : State) : ∃ t, runWord w s = .next t := by
  obtain ⟨m, src, r, hrun⟩ := runWord_ended w s
  exact ⟨_, hrun s ⟨rfl, rfl, rfl⟩⟩

/-- Settles O13: by whose turn it is; the engine answers every word. -/
theorem everyStepIsSafe : Obligations.EveryStepIsSafe := by
  refine ⟨exec_answers, fun s => ?_⟩
  unfold Safe step
  cases nextTurn s with
  | reset rest => exact ⟨_, rfl⟩
  | engine w => exact runWord_answers w s
  | host => exact ⟨_, rfl⟩

/-! ### A reset with a command in flight -/

/-- Settles O17: the ready engine accepts the word, and the reset that lands before its turn loses a part of its answers. -/
theorem resetAbandonsTheCommandInFlight : Obligations.ResetAbandonsTheCommandInFlight := by
  intro s w rest hready htodo
  have haccept : step s = .next (s.accept w (.reset :: rest)) := step_send_of_ready hready htodo
  have hreset : step (s.accept w (.reset :: rest)) = .next (resetEvent rest (s.accept w (.reset :: rest))) := step_reset rfl
  obtain ⟨k, hk, hfixed, hfree⟩ := s.src.lose_cases (drawsInFlight (s.accept w (.reset :: rest)))
  exact ⟨_, (run_succ haccept).trans (run_succ hreset), rfl, ⟨rfl, rfl⟩, rfl, rfl, k, hk, hfixed, hfree⟩

end Sys2Proof.Machine
end

section
/-!
PROOFS. The causes of the errors (60_exceptions R190 to R200), one rule per cause, and that they are all: a command raises an error
exactly where a rule says so, and each statement about one error is a reading of its rules. No rule is IllegalCommand's.
-/

namespace Sys2Proof.Machine

variable {s : State} {i : Instr} {e : Err} {d : Half}

/-- `Raises s e i`: the command `i` has a cause of the error `e` in the state `s`. IllegalCommand has none: it is the error of the
words that are no command (60_exceptions R198). -/
inductive Raises (s : State) : Err → Instr → Prop
  -- R190, InvalidThreshold
  | splitThreshold (n k : Count12) (hk : k.toNat < 2) : Raises s .invalidThreshold (.split n k)
  | pbuild (b : Byte) : Raises s .invalidThreshold (.pbuild b 0)
  | peval (x : Byte) (hempty : s.clen = 0) : Raises s .invalidThreshold (.peval x)
  -- R191, InvalidShareCount
  | splitCount (n k : Count12) (hk : 2 ≤ k.toNat) (hn : n.toNat < k.toNat) : Raises s .invalidShareCount (.split n k)
  -- R192, ShareCountOverflow
  | splitOverflow (n k : Count12) (hk : 2 ≤ k.toNat) (hkn : k.toNat ≤ n.toNat) (hn : 255 < n.toNat) :
      Raises s .shareCountOverflow (.split n k)
  -- R193, DomainError
  | fdiv (a : Byte) : Raises s .domainError (.fdiv a 0)
  | finv : Raises s .domainError (.finv 0)
  -- R194, InsufficientShares
  | combineFew (hfew : s.scnt < 2) : Raises s .insufficientShares .combine
  -- R195, MalformedShares
  | combineLengths (h2 : 2 ≤ s.scnt) (hlen : ∃ k < s.scnt, s.slotLen k ≠ s.slotLen 0) : Raises s .malformedShares .combine
  -- R196, DuplicateShareId
  | combineIds (h2 : 2 ≤ s.scnt) (hlen : ∀ k < s.scnt, s.slotLen k = s.slotLen 0)
      (hdup : ∃ j k, j < k ∧ k < s.scnt ∧ s.readByte (.id j) = s.readByte (.id k)) : Raises s .duplicateShareId .combine
  -- R197, MalformedShare
  | decMalformed (hio : s.iolen < 2 ∨ s.readByte (.io 0) = some 0) : Raises s .malformedShare .dec
  -- R199, BadAddress
  | crd (k : Byte) (hk : s.clen ≤ k.toNat) : Raises s .badAddress (.crd k)
  | srd (k : Half) (hk : s.slen ≤ k.toNat) : Raises s .badAddress (.srd k)
  | iord (k : Half) (hk : s.iolen ≤ k.toNat) : Raises s .badAddress (.iord k)
  | shid (k : Byte) (hk : s.scnt ≤ k.toNat) : Raises s .badAddress (.shid k)
  | shlen (k : Byte) (hk : s.scnt ≤ k.toNat) : Raises s .badAddress (.shlen k)
  | shdel (k : Byte) (hk : s.scnt ≤ k.toNat) : Raises s .badAddress (.shdel k)
  | enc (k : Byte) (hk : s.scnt ≤ k.toNat) : Raises s .badAddress (.enc k)
  | shrd (k : Byte) (q : Half) (hq : s.scnt ≤ k.toNat ∨ ∃ len, s.slotLen k.toNat = some len ∧ len ≤ q.toNat) :
      Raises s .badAddress (.shrd k q)
  | rdr (r : Byte) (hr : 5 ≤ r.toNat) : Raises s .badAddress (.rdr r)
  -- R200, CapacityExceeded
  | cpush (b : Byte) (hfull : s.clen = 255) : Raises s .capacityExceeded (.cpush b)
  | spush (b : Byte) (hfull : s.slen = s.lmax) : Raises s .capacityExceeded (.spush b)
  | iopush (b : Byte) (hfull : s.iolen = s.lmax + 1) : Raises s .capacityExceeded (.iopush b)
  | decFull (hfull : s.scnt = 255) (hio : ¬ (s.iolen < 2 ∨ s.readByte (.io 0) = some 0)) : Raises s .capacityExceeded .dec

/-! ### What cannot be read -/

theorem le_length_of_readCell_eq_none {cells : List Byte} {k : Nat} (h : readCell cells k = none) : cells.length ≤ k :=
  List.getElem?_eq_none_iff.mp h

theorem scnt_le_of_readByte_id_eq_none {k : Nat} (h : s.readByte (.id k) = none) : s.scnt ≤ k :=
  List.getElem?_eq_none_iff.mp (Option.map_eq_none_iff.mp h)

theorem scnt_le_of_slotLen_eq_none {k : Nat} (h : s.slotLen k = none) : s.scnt ≤ k :=
  List.getElem?_eq_none_iff.mp (Option.map_eq_none_iff.mp h)

theorem pay_bounds_of_readByte_eq_none {k q : Nat} (h : s.readByte (.pay k q) = none) :
    s.scnt ≤ k ∨ ∃ len, s.slotLen k = some len ∧ len ≤ q := by
  cases hslot : readSlot s.mem.sh k with
  | none => exact .inl (List.getElem?_eq_none_iff.mp hslot)
  | some x =>
    obtain ⟨-, hlen, hpay⟩ := reads_of_readSlot hslot
    exact .inr ⟨_, hlen, le_length_of_readCell_eq_none ((hpay q).symm.trans h)⟩

theorem five_le_of_register_eq_none {r : Nat} (h : s.register r = none) : 5 ≤ r := by
  by_contra hr
  have hr : r < 5 := not_le.mp hr
  interval_cases r <;> cases h

/-- The third check of COMBINE, by slot. -/
theorem duplicateIds_iff : (¬ (s.mem.sh.map Share.id).Nodup) ↔
    ∃ j k, j < k ∧ k < s.scnt ∧ s.readByte (.id j) = s.readByte (.id k) := by
  have hread (j : Nat) : s.readByte (.id j) = (s.mem.sh.map Share.id)[j]? := List.getElem?_map.symm
  simp only [List.nodup_iff_getElem?_ne_getElem?, List.length_map, hread, State.scnt]
  push Not
  rfl

/-! ### A cause is an error -/

/-- A command with a cause ends with its error and nothing else changed. -/
theorem Raises.responds (h : Raises s e i) : Responds i s (responseWord e.code 0) := by
  cases h with
  | splitThreshold n k hk => exact responds_split_invalidThreshold hk
  | pbuild b => rfl
  | peval x hempty => exact responds_peval_empty x hempty
  | splitCount n k hk hn => exact responds_split_invalidShareCount hk hn
  | splitOverflow n k hk hkn hn => exact responds_split_shareCountOverflow hk hkn hn
  | fdiv a => rfl
  | finv => rfl
  | combineFew hfew => exact responds_combine_insufficientShares hfew
  | combineLengths h2 hlen =>
    refine responds_combine_malformedShares h2 fun hall => ?_
    obtain ⟨k, hk, hne⟩ := hlen
    exact hne ((slotLens_equal_iff h2).mpr hall k hk)
  | combineIds h2 hlen hdup =>
    exact responds_combine_duplicateShareId h2 ((slotLens_equal_iff h2).mp hlen) (duplicateIds_iff.mpr hdup)
  | decMalformed hio => exact responds_dec_malformedShare (decodeShare_eq_none_iff.mpr hio)
  | crd k hk | srd k hk | iord k hk => exact respondByte_none (readCell_eq_none hk)
  | shid k hk =>
    obtain ⟨hid, -, -⟩ := responds_slot_badAddress (q := 0) hk
    exact hid
  | shlen k hk =>
    obtain ⟨-, hlen, -⟩ := responds_slot_badAddress (q := 0) hk
    exact hlen
  | shdel k hk => exact if_pos hk
  | enc k hk => exact responds_enc_badAddress hk
  | shrd k q hq =>
    rcases hq with hk | ⟨len, hlen, hq⟩
    · obtain ⟨-, -, hpay⟩ := responds_slot_badAddress (q := q) hk
      exact hpay
    · exact responds_shrd_badAddress hlen hq
  | rdr r hr => exact responds_rdr_badAddress hr
  | cpush b hfull | spush b hfull | iopush b hfull => exact if_pos hfull
  | decFull hfull hio =>
    obtain ⟨x, hx⟩ := Option.ne_none_iff_exists'.mp (mt decodeShare_eq_none_iff.mp hio)
    exact responds_dec_capacityExceeded hx hfull

/-! ### Without a cause there is no error -/

/-- The command has a cause of an error, or ends with success. -/
def CauseOrSuccess (s : State) (i : Instr) : Prop :=
  (∃ e, Raises s e i) ∨ ∃ u d, exec i s = respond d u

theorem causeOrSuccess_of_check {p : Prop} [Decidable p] {u : State}
    (hexec : exec i s = if p then raise e s else respond d u) (hcause : p → Raises s e i) : CauseOrSuccess s i := by
  by_cases hp : p
  · exact .inl ⟨e, hcause hp⟩
  · exact .inr ⟨u, d, hexec.trans (if_neg hp)⟩

theorem causeOrSuccess_of_respondByte {o : Option Byte} (hexec : exec i s = respondByte o s)
    (hcause : o = none → Raises s .badAddress i) : CauseOrSuccess s i := by
  cases o with
  | none => exact .inl ⟨_, hcause rfl⟩
  | some v => exact .inr ⟨_, _, hexec⟩

theorem causeOrSuccess_of_respondLength {o : Option Nat} (hexec : exec i s = respondLength o s)
    (hcause : o = none → Raises s .badAddress i) : CauseOrSuccess s i := by
  cases o with
  | none => exact .inl ⟨_, hcause rfl⟩
  | some n => exact .inr ⟨_, _, hexec⟩

theorem causeOrSuccess_of_respondField {o : Option Byte} (hexec : exec i s = respondField o s)
    (hcause : o = none → Raises s .domainError i) : CauseOrSuccess s i := by
  cases o with
  | none => exact .inl ⟨_, hcause rfl⟩
  | some v => exact .inr ⟨_, _, hexec⟩

theorem eq_zero_of_fieldInv_eq_none {a : Byte} (h : fieldInv a = none) : a = 0 := by
  by_contra ha
  cases (fieldInv_of_ne_zero ha).symm.trans h

theorem causeOrSuccess_split (n k : Count12) : CauseOrSuccess s (.split n k) := by
  rcases lt_or_ge k.toNat 2 with hk | hk
  · exact .inl ⟨_, .splitThreshold n k hk⟩
  rcases lt_or_ge n.toNat k.toNat with hkn | hkn
  · exact .inl ⟨_, .splitCount n k hk hkn⟩
  rcases lt_or_ge 255 n.toNat with hn | hn
  · exact .inl ⟨_, .splitOverflow n k hk hkn hn⟩
  · exact .inr ⟨_, _, execSplit_legal hk hkn hn⟩

/-- COMBINE past its checks has distinct ids, whose differences are not 0, so no weight meets a DomainError (44_combiner R154). -/
theorem causeOrSuccess_combine : CauseOrSuccess s .combine := by
  rcases lt_or_ge s.scnt 2 with h2 | h2
  · exact .inl ⟨_, .combineFew h2⟩
  by_cases hlen : ∀ k < s.scnt, s.slotLen k = s.slotLen 0
  case neg =>
    push Not at hlen
    exact .inl ⟨_, .combineLengths h2 hlen⟩
  by_cases hnd : (s.mem.sh.map Share.id).Nodup
  · exact .inr ⟨_, _, exec_combine h2 ((slotLens_equal_iff h2).mp hlen) hnd⟩
  · exact .inl ⟨_, .combineIds h2 hlen (duplicateIds_iff.mp hnd)⟩

theorem causeOrSuccess_enc (j : Byte) : CauseOrSuccess s (.enc j) := by
  cases hslot : s.mem.sh[j.toNat]? with
  | none => exact .inl ⟨_, .enc j (List.getElem?_eq_none_iff.mp hslot)⟩
  | some x => exact .inr ⟨_, _, exec_enc hslot⟩

theorem causeOrSuccess_dec : CauseOrSuccess s .dec := by
  cases hx : decodeShare s.mem.io with
  | none => exact .inl ⟨_, .decMalformed (decodeShare_eq_none_iff.mp hx)⟩
  | some x =>
    by_cases hfull : s.scnt = 255
    · exact .inl ⟨_, .decFull hfull fun hio => by simp [decodeShare_eq_none_iff.mpr hio] at hx⟩
    · exact .inr ⟨_, _, exec_dec hx hfull⟩

/-- The causes are all: a command without one ends with success. -/
theorem causeOrSuccess (s : State) (i : Instr) : CauseOrSuccess s i := by
  cases i with
  | fadd a b | fsub a b | fmul a b => exact .inr ⟨_, _, rfl⟩
  | cclr | sclr | shclr | ioclr => exact .inr ⟨_, _, rfl⟩
  | fdiv a b =>
    refine causeOrSuccess_of_respondField rfl fun h => ?_
    obtain rfl := eq_zero_of_fieldInv_eq_none (Option.map_eq_none_iff.mp h)
    exact .fdiv a
  | finv a =>
    refine causeOrSuccess_of_respondField rfl fun h => ?_
    obtain rfl := eq_zero_of_fieldInv_eq_none h
    exact .finv
  | pbuild b k =>
    refine causeOrSuccess_of_check rfl fun h => ?_
    obtain rfl : k = 0 := BitVec.eq_of_toNat_eq h
    exact .pbuild b
  | peval x => exact causeOrSuccess_of_check rfl (.peval x)
  | cpush b => exact causeOrSuccess_of_check rfl (.cpush b)
  | spush b => exact causeOrSuccess_of_check rfl (.spush b)
  | iopush b => exact causeOrSuccess_of_check rfl (.iopush b)
  | shdel j => exact causeOrSuccess_of_check rfl (.shdel j)
  | crd k => exact causeOrSuccess_of_respondByte rfl fun h => .crd k (le_length_of_readCell_eq_none h)
  | srd k => exact causeOrSuccess_of_respondByte rfl fun h => .srd k (le_length_of_readCell_eq_none h)
  | iord k => exact causeOrSuccess_of_respondByte rfl fun h => .iord k (le_length_of_readCell_eq_none h)
  | shid j => exact causeOrSuccess_of_respondByte rfl fun h => .shid j (scnt_le_of_readByte_id_eq_none h)
  | shrd j q => exact causeOrSuccess_of_respondByte rfl fun h => .shrd j q (pay_bounds_of_readByte_eq_none h)
  | shlen j => exact causeOrSuccess_of_respondLength rfl fun h => .shlen j (scnt_le_of_slotLen_eq_none h)
  | rdr r => exact causeOrSuccess_of_respondLength rfl fun h => .rdr r (five_le_of_register_eq_none h)
  | split n k => exact causeOrSuccess_split n k
  | combine => exact causeOrSuccess_combine
  | enc j => exact causeOrSuccess_enc j
  | dec => exact causeOrSuccess_dec

/-- A command ends with the response of an error exactly where it has a cause of that error. -/
theorem responds_code_iff_raises (e : Err) : Responds i s (responseWord e.code 0) ↔ Raises s e i := by
  refine ⟨fun h => ?_, Raises.responds⟩
  rcases causeOrSuccess s i with ⟨e', he'⟩ | ⟨u, d, hsuccess⟩
  · have hcode := congrArg errField (responds_unique he'.responds h)
    rw [errField_responseWord, errField_responseWord] at hcode
    rwa [← code_injective hcode]
  · have hrsp := congrArg State.rsp (Host.Outcome.next.inj (hsuccess.symm.trans h))
    have hcode : errField (responseWord 0x00 d) = errField (responseWord e.code 0) := congrArg errField (Option.some.inj hrsp)
    rw [errField_responseWord, errField_responseWord] at hcode
    exact absurd hcode.symm (code_ne_zero e)

/-! ### The errors one by one -/

/-- Settles O22: the rules for SPLIT, PBUILD and PEVAL. -/
theorem invalidThresholdExactly : Obligations.InvalidThresholdExactly := by
  refine fun i s => (responds_code_iff_raises .invalidThreshold).trans ⟨fun h => ?_, ?_⟩
  · cases h with
    | splitThreshold n k hk => exact .inl ⟨n, k, rfl, hk⟩
    | pbuild b => exact .inr (.inl ⟨b, rfl⟩)
    | peval x hempty => exact .inr (.inr ⟨x, rfl, hempty⟩)
  · rintro (⟨n, k, rfl, hk⟩ | ⟨b, rfl⟩ | ⟨x, rfl, hempty⟩)
    · exact .splitThreshold n k hk
    · exact .pbuild b
    · exact .peval x hempty

/-- Settles O23: the one rule for SPLIT. -/
theorem invalidShareCountExactly : Obligations.InvalidShareCountExactly := by
  refine fun i s => (responds_code_iff_raises .invalidShareCount).trans ⟨fun h => ?_, ?_⟩
  · cases h with
    | splitCount n k hk hn => exact ⟨n, k, rfl, hk, hn⟩
  · rintro ⟨n, k, rfl, hk, hn⟩
    exact .splitCount n k hk hn

/-- Settles O24: the one rule for SPLIT, whose conditions exclude the two before it. -/
theorem shareCountOverflowExactly : Obligations.ShareCountOverflowExactly := by
  refine fun i s => (responds_code_iff_raises .shareCountOverflow).trans ⟨fun h => ?_, ?_⟩
  · cases h with
    | splitOverflow n k hk hkn hn => exact ⟨n, k, rfl, hk, hkn, hn⟩
  · rintro ⟨n, k, rfl, hk, hkn, hn⟩
    exact .splitOverflow n k hk hkn hn

/-- Settles O25: the rules for FDIV and FINV; there is none for COMBINE. -/
theorem domainErrorExactly : Obligations.DomainErrorExactly := by
  refine fun i s => (responds_code_iff_raises .domainError).trans ⟨fun h => ?_, ?_⟩
  · cases h with
    | fdiv a => exact .inl ⟨a, rfl⟩
    | finv => exact .inr rfl
  · rintro (⟨a, rfl⟩ | rfl)
    · exact .fdiv a
    · exact .finv

/-- Settles O26: the first rule for COMBINE. -/
theorem insufficientSharesExactly : Obligations.InsufficientSharesExactly := by
  refine fun i s => (responds_code_iff_raises .insufficientShares).trans ⟨fun h => ?_, ?_⟩
  · cases h with
    | combineFew hfew => exact ⟨rfl, hfew⟩
  · rintro ⟨rfl, hfew⟩
    exact .combineFew hfew

/-- Settles O27: the second rule for COMBINE. -/
theorem malformedSharesExactly : Obligations.MalformedSharesExactly := by
  refine fun i s => (responds_code_iff_raises .malformedShares).trans ⟨fun h => ?_, ?_⟩
  · cases h with
    | combineLengths h2 hlen => exact ⟨rfl, h2, hlen⟩
  · rintro ⟨rfl, h2, hlen⟩
    exact .combineLengths h2 hlen

/-- Settles O28: the third rule for COMBINE. -/
theorem duplicateShareIdExactly : Obligations.DuplicateShareIdExactly := by
  refine fun i s => (responds_code_iff_raises .duplicateShareId).trans ⟨fun h => ?_, ?_⟩
  · cases h with
    | combineIds h2 hlen hdup => exact ⟨rfl, h2, hlen, hdup⟩
  · rintro ⟨rfl, h2, hlen, hdup⟩
    exact .combineIds h2 hlen hdup

/-- Settles O29: the first rule for DEC. -/
theorem malformedShareExactly : Obligations.MalformedShareExactly := by
  refine fun i s => (responds_code_iff_raises .malformedShare).trans ⟨fun h => ?_, ?_⟩
  · cases h with
    | decMalformed hio => exact ⟨rfl, hio⟩
  · rintro ⟨rfl, hio⟩
    exact .decMalformed hio

/-- Settles O30: the rules for the reads, SHDEL and ENC. -/
theorem badAddressExactly : Obligations.BadAddressExactly := by
  refine fun i s => (responds_code_iff_raises .badAddress).trans ⟨fun h => ?_, ?_⟩
  · cases h with
    | crd k hk => exact .inl ⟨k, rfl, hk⟩
    | srd k hk => exact .inr (.inl ⟨k, rfl, hk⟩)
    | iord k hk => exact .inr (.inr (.inl ⟨k, rfl, hk⟩))
    | shid k hk | shlen k hk | shdel k hk | enc k hk => exact .inr (.inr (.inr (.inl ⟨k, by simp, hk⟩)))
    | shrd k q hq => exact .inr (.inr (.inr (.inr (.inl ⟨k, q, rfl, hq⟩))))
    | rdr r hr => exact .inr (.inr (.inr (.inr (.inr ⟨r, rfl, hr⟩))))
  · rintro (⟨k, rfl, hk⟩ | ⟨k, rfl, hk⟩ | ⟨k, rfl, hk⟩ | ⟨k, rfl | rfl | rfl | rfl, hk⟩ | ⟨k, q, rfl, hq⟩ | ⟨r, rfl, hr⟩)
    · exact .crd k hk
    · exact .srd k hk
    · exact .iord k hk
    · exact .shid k hk
    · exact .shlen k hk
    · exact .shdel k hk
    · exact .enc k hk
    · exact .shrd k q hq
    · exact .rdr r hr

/-- Settles O31: the rules for the pushes, and the second for DEC. -/
theorem capacityExceededExactly : Obligations.CapacityExceededExactly := by
  refine fun i s => (responds_code_iff_raises .capacityExceeded).trans ⟨fun h => ?_, ?_⟩
  · cases h with
    | cpush b hfull => exact .inl ⟨b, rfl, hfull⟩
    | spush b hfull => exact .inr (.inl ⟨b, rfl, hfull⟩)
    | iopush b hfull => exact .inr (.inr (.inl ⟨b, rfl, hfull⟩))
    | decFull hfull hio => exact .inr (.inr (.inr ⟨rfl, hfull, hio⟩))
  · rintro (⟨b, rfl, hfull⟩ | ⟨b, rfl, hfull⟩ | ⟨b, rfl, hfull⟩ | ⟨rfl, hfull, hio⟩)
    · exact .cpush b hfull
    · exact .spush b hfull
    · exact .iopush b hfull
    · exact .decFull hfull hio

/-- Settles O7: a word that is a command runs it, and no command has a cause of IllegalCommand. -/
theorem illegalCommandExactly : Obligations.IllegalCommandExactly := by
  refine fun w s hcmd hreset => ⟨?_, fun hno => ?_⟩
  · rintro hstep i rfl
    have hexec : step s = exec i s := stepRunsTheDecodedCommand s _ i hcmd hreset (decodeOfEncodeIsTheCommand i)
    cases (responds_code_iff_raises .illegalCommand).mp (hexec.symm.trans hstep)
  · exact wordIllegal_of_decode (fun i hi => hno i (encodeOfDecodeIsTheWord w i hi)) s hcmd hreset

end Sys2Proof.Machine
end
